-- ==== Sys2Proof/Word.lean ====
section
/-! DEFINITION. The value types of the block: byte and pixel. -/

namespace Sys2Proof

/-- A byte: 8 bits, unsigned (00_scope.md R8). -/
abbrev Byte := BitVec 8

/-- The value type of every pixel register, cache slot and pixel-buffer element: four named
channels of one byte (10_state.md R11). Two pixels are equal when all four channels are. -/
structure Pixel where
  r : Byte
  g : Byte
  b : Byte
  a : Byte
  deriving DecidableEq, Repr

end Sys2Proof
end

