-- ==== Sys2Proof/Config.lean ====
section
/-! DEFINITION. The names of the block and its op-code set, the constants the format fixes
(00_scope.md R2, R6) and the one free value, `ChanFlag`
outside its two given arguments (00_scope.md R7). -/

namespace Sys2Proof.Config

/-- The name of the block (00_scope.md R2; 92_eei_decisions.md D27). -/
def blockName : String := "hardqoi-core"

/-- The name of the op-code set, which has one version (00_scope.md R2; 92_eei_decisions.md D27). -/
def opSetName : String := "QOI-OPS"

/-- `PIXEL_BITS`, the width of a pixel as one packed value (00_scope.md R6). -/
abbrev pixelBits : Nat := 32

/-- `CACHE_SLOTS` (00_scope.md R6). -/
abbrev cacheSlots : Nat := 64

/-- `HASH_MUL`, the multipliers of red, green, blue and alpha (00_scope.md R6). -/
def hashMul : Nat × Nat × Nat × Nat := (3, 5, 7, 11)

/-- `PX_RESET`, the default pixel, opaque black (00_scope.md R6). -/
def pxReset : Pixel := ⟨0, 0, 0, 255⟩

/-- The zero pixel; `CACHE_RESET`, the content of a slot nothing has written (00_scope.md R7). -/
def zeroPixel : Pixel := ⟨0, 0, 0, 0⟩

/-- `HEADER_LEN` (00_scope.md R6). -/
def headerLen : Nat := 14

/-- The length of the end marker (00_scope.md R6). -/
def endMarkerLen : Nat := 8

/-- `MAGIC`, the bytes of "qoif" (00_scope.md R6). -/
def magic : List Byte := [0x71, 0x6F, 0x69, 0x66]

/-- `END_MARKER` (00_scope.md R6). -/
def endMarker : List Byte := [0, 0, 0, 0, 0, 0, 0, 1]

/-- `RUN_MAX` (00_scope.md R6). -/
def runMax : Nat := 62

/-- `DIFF_BIAS` (00_scope.md R6). -/
def diffBias : Int := 2

/-- `LUMA_G_BIAS` (00_scope.md R6). -/
def lumaGBias : Int := 32

/-- `LUMA_RB_BIAS` (00_scope.md R6). -/
def lumaRBBias : Int := 8

/-- `TAG_RGBA` (00_scope.md R6). -/
def tagRgba : Byte := 0xFF

/-- `TAG_RGB` (00_scope.md R6). -/
def tagRgb : Byte := 0xFE

/-- FREE VALUE. What `ChanFlag` gives for a channels byte other than 3 or 4: the spec leaves it open
(40_header.md R66), so it has no body and nothing can be proved of it. -/
opaque chanFlagOther : Byte → Bool

/-- `ChanFlag`, of which only the values at 3 and 4 are known (40_header.md R66). -/
def chanFlag (c : Byte) : Bool :=
  if c = 3 then false else if c = 4 then true else chanFlagOther c

end Sys2Proof.Config
end

