-- ==== Sys2Proof/Syntax.lean ====
section
/-! DEFINITION. The cache slot number, and the six ops of the op-code set, one constructor per row of spec/opcode_table.json,
with the operands of the spec's own syntax (30_encoding.md R57): signed deltas and the run length,
not the stored fields. -/

namespace Sys2Proof

/-- A cache slot number, 0 to 63 (10_state.md R24). -/
abbrev Slot := Fin Config.cacheSlots

/-- An op of the set `Config.opSetName` (00_scope.md R1, 30_encoding.md R47). -/
inductive Instr where
  /-- Literal pixel, all four channels (30_encoding.md R49). -/
  | rgba (r g b a : Byte)
  /-- Literal pixel, alpha kept (30_encoding.md R50). -/
  | rgb (r g b : Byte)
  /-- Pixel from a cache slot (30_encoding.md R51). -/
  | index (i : Slot)
  /-- Small deltas of red, green, blue, each -2 to 1 (30_encoding.md R52). -/
  | diff (dr dg db : Int)
  /-- Green delta -32 to 31; secondary deltas `dr - dg` and `db - dg`, each -8 to 7
  (30_encoding.md R53). -/
  | luma (dg drg dbg : Int)
  /-- Repeat the current pixel `n` times, 1 to 62 (30_encoding.md R54). -/
  | run (n : Nat)
  deriving DecidableEq, Repr

/-- Which of the six ops, without operands: what the leading byte alone selects
(30_encoding.md R47). -/
inductive OpKind where
  | rgba | rgb | index | diff | luma | run
  deriving DecidableEq, Repr

/-- The op a term is. -/
def Instr.kind : Instr → OpKind
  | .rgba _ _ _ _ => .rgba
  | .rgb _ _ _ => .rgb
  | .index _ => .index
  | .diff _ _ _ => .diff
  | .luma _ _ _ => .luma
  | .run _ => .run

end Sys2Proof
end

