-- ==== Sys2Proof/WellFormed.lean ====
section
/-! DEFINITION. The operand ranges outside which an op has no encoding (30_encoding.md R55, R57). -/

namespace Sys2Proof

/-- A DIFF delta is -2 to 1 (30_encoding.md R55). -/
abbrev inDiffRange (d : Int) : Prop := -2 ≤ d ∧ d ≤ 1

/-- A LUMA green delta is -32 to 31 (30_encoding.md R55). -/
abbrev inLumaGRange (d : Int) : Prop := -32 ≤ d ∧ d ≤ 31

/-- A LUMA secondary delta is -8 to 7 (30_encoding.md R55). -/
abbrev inLumaRBRange (d : Int) : Prop := -8 ≤ d ∧ d ≤ 7

/-- A run length is 1 to 62 (30_encoding.md R54). -/
abbrev inRunRange (n : Nat) : Prop := 1 ≤ n ∧ n ≤ Config.runMax

/-- The op has an encoding: "A line outside the operand ranges has no encoding"
(30_encoding.md R57). Literal bytes and slot numbers are in range by their types. -/
def Instr.wf : Instr → Bool
  | .rgba _ _ _ _ => true
  | .rgb _ _ _ => true
  | .index _ => true
  | .diff dr dg db => decide (inDiffRange dr ∧ inDiffRange dg ∧ inDiffRange db)
  | .luma dg drg dbg => decide (inLumaGRange dg ∧ inLumaRBRange drg ∧ inLumaRBRange dbg)
  | .run n => decide (inRunRange n)

end Sys2Proof
end

