-- ==== Sys2Proof/Decode.lean ====
section
/-! DEFINITION. The op decoder, total on any bytes and rejecting by name, and the encoder written
from the same format rules (30_encoding.md R48 to R57). -/

namespace Sys2Proof

/-- `v[hi:lo]` of a byte, as an unsigned number (00_scope.md R8). -/
def field (v : Byte) (hi lo : Nat) : Nat := v.toNat / 2 ^ lo % 2 ^ (hi + 1 - lo)

/-- The op a leading byte selects: exact tags first, then the top two bits (30_encoding.md R48). -/
def dispatch (b : Byte) : OpKind :=
  if b = Config.tagRgba then .rgba
  else if b = Config.tagRgb then .rgb
  else if field b 7 6 = 0 then .index
  else if field b 7 6 = 1 then .diff
  else if field b 7 6 = 2 then .luma
  else .run

/-- The length in bytes of an op, known from its leading byte alone (30_encoding.md R47). -/
def OpKind.length : OpKind → Nat
  | .rgba => 5
  | .rgb => 4
  | .index => 1
  | .diff => 1
  | .luma => 2
  | .run => 1

/-- The longest op, RGBA (30_encoding.md R47). -/
def maxOpLen : Nat := 5

/-- `actual = biased_value + bias`, the bias a number that is subtracted (30_encoding.md R55). -/
def unbias (stored : Nat) (bias : Int) : Int := (stored : Int) - bias

/-- `stored = signed + bias` (30_encoding.md R55), as a byte to be shifted into place. -/
def biased (signed bias : Int) : Byte := BitVec.ofInt 8 (signed + bias)

/-- The slot number of an INDEX byte, `b[5:0]` (30_encoding.md R51). -/
def slotField (b : Byte) : Slot := Fin.ofNat Config.cacheSlots (field b 5 0)

/-- Why bytes hold no whole op. There is no illegal encoding (30_encoding.md R56): bytes fail to
decode only where they end too early. -/
inductive DecodeError where
  /-- There is no leading byte. -/
  | noLeadingByte
  /-- The op's payload is cut short. -/
  | payloadMissing (op : OpKind)
  deriving DecidableEq, Repr

/-- The op that stands at the front of the bytes and the bytes after it
(30_encoding.md R48 to R55). -/
def decode : List Byte → Except DecodeError (Instr × List Byte)
  | [] => .error .noLeadingByte
  | b0 :: rest =>
    match dispatch b0 with
    | .rgba =>
      match rest with
      | r :: g :: b :: a :: rest' => .ok (.rgba r g b a, rest')
      | _ => .error (.payloadMissing .rgba)
    | .rgb =>
      match rest with
      | r :: g :: b :: rest' => .ok (.rgb r g b, rest')
      | _ => .error (.payloadMissing .rgb)
    | .index => .ok (.index (slotField b0), rest)
    | .diff =>
      .ok (.diff (unbias (field b0 5 4) Config.diffBias) (unbias (field b0 3 2) Config.diffBias)
        (unbias (field b0 1 0) Config.diffBias), rest)
    | .luma =>
      match rest with
      | b1 :: rest' =>
        .ok (.luma (unbias (field b0 5 0) Config.lumaGBias) (unbias (field b1 7 4) Config.lumaRBBias)
          (unbias (field b1 3 0) Config.lumaRBBias), rest')
      | [] => .error (.payloadMissing .luma)
    | .run => .ok (.run (field b0 5 0 + 1), rest)

/-- The bytes of a well-formed op (30_encoding.md R57). For a term that is not well-formed the
answer means nothing: see `assemble`. -/
def encode : Instr → List Byte
  | .rgba r g b a => [Config.tagRgba, r, g, b, a]
  | .rgb r g b => [Config.tagRgb, r, g, b]
  | .index i => [BitVec.ofNat 8 i.val]
  | .diff dr dg db =>
    [0x40#8 ||| biased dr Config.diffBias <<< 4 ||| biased dg Config.diffBias <<< 2
      ||| biased db Config.diffBias]
  | .luma dg drg dbg =>
    [0x80#8 ||| biased dg Config.lumaGBias,
      biased drg Config.lumaRBBias <<< 4 ||| biased dbg Config.lumaRBBias]
  | .run n => [0xC0#8 ||| BitVec.ofNat 8 (n - 1)]

/-- A line of the spec's syntax to its bytes; none outside the operand ranges
(30_encoding.md R57). -/
def assemble (i : Instr) : Option (List Byte) := if i.wf then some (encode i) else none

/-- The four bytes of a 32-bit number, most significant first (20_memory.md R34). -/
def bytesBE32 (v : BitVec 32) : List Byte :=
  [v.extractLsb' 24 8, v.extractLsb' 16 8, v.extractLsb' 8 8, v.extractLsb' 0 8]

/-- `BE32(b0, b1, b2, b3)` (00_scope.md R8). -/
def be32 (b0 b1 b2 b3 : Byte) : BitVec 32 := b0 ++ b1 ++ b2 ++ b3

/-- The pseudo-line `HEADER w, h, ch, cs`: the 14 header bytes (30_encoding.md R57). The pseudo-line
`END` is `Config.endMarker`. -/
def headerLine (w h : BitVec 32) (ch cs : Byte) : List Byte :=
  Config.magic ++ bytesBE32 w ++ bytesBE32 h ++ [ch, cs]

/-- A row of the opcode table: match, mask and excluded values of the leading byte
(30_encoding.md R58). -/
structure OpRow where
  kind : OpKind
  pattern : Byte
  mask : Byte
  exclude : List Byte
  deriving DecidableEq, Repr

/-- The opcode table, in its order (30_encoding.md R58, opcode_table.json). -/
def opcodeTable : List OpRow :=
  [⟨.rgba, 0xFF, 0xFF, []⟩, ⟨.rgb, 0xFE, 0xFF, []⟩, ⟨.index, 0x00, 0xC0, []⟩,
   ⟨.diff, 0x40, 0xC0, []⟩, ⟨.luma, 0x80, 0xC0, []⟩, ⟨.run, 0xC0, 0xC0, [0xFE, 0xFF]⟩]

/-- A row matches a leading byte (30_encoding.md R58). -/
def OpRow.matches (row : OpRow) (b : Byte) : Bool :=
  (b &&& row.mask == row.pattern) && !row.exclude.contains b

/-- The instruction bytes of a table word: byte `k` is bits `8k+7` to `8k`; bits at and above
`nbits` are 0, up to the longest op. -/
def tableWordBytes (nbits w : Nat) : List Byte :=
  (List.range maxOpLen).map fun k => BitVec.ofNat 8 (w % 2 ^ nbits / 2 ^ (8 * k))

/-- The op the decoder reads from a table word. -/
def decodeTableWord (nbits w : Nat) : Option Instr :=
  match decode (tableWordBytes nbits w) with
  | .ok (i, _) => some i
  | .error _ => none

end Sys2Proof
end

