-- ==== Sys2Proof/Machine/State.lean ====
section
/-! DEFINITION. The state of the block: two engines, each with its own registers, cache, buffers
and status (10_state.md), the reasons a step can stop, and the state after reset. -/

namespace Sys2Proof.Machine

/-- A byte space: its length, and its bytes in canonical form (`Memory.wf`). A byte below the length
that no cell lists is `Memory.unlistedByte`. -/
structure Memory where
  /-- Addresses strictly rising, none listed with the value of an unlisted byte. -/
  cells : List Host.Cell
  /-- The number of bytes of the space: `IN_LEN` for `IN` (10_state.md R21). -/
  len : Nat
  deriving DecidableEq, Repr

/-- What a byte below the length reads as when no cell lists it (log entry 7). -/
def Memory.unlistedByte : Byte := 0

/-- The space of length 0. -/
def Memory.empty : Memory := ⟨[], 0⟩

/-- The cells lie in `lo ≤ address < hi`, rise strictly, and none is an unlisted byte's value. -/
def Memory.cellsWf (lo hi : Nat) : List Host.Cell → Bool
  | [] => true
  | (a, b) :: rest =>
    decide (lo ≤ a) && decide (a < hi) && decide (b ≠ Memory.unlistedByte)
      && Memory.cellsWf (a + 1) hi rest

/-- The canonical form: equal byte spaces are equal data. -/
def Memory.wf (m : Memory) : Bool := Memory.cellsWf 0 m.len m.cells

/-- The header record (10_state.md R20). -/
structure Header where
  width : BitVec 32
  height : BitVec 32
  hasAlpha : Bool
  linearRgb : Bool
  deriving DecidableEq, Repr

/-- The values of `STATUS` (10_state.md R22, 60_exceptions.md R123). -/
inductive Status where
  | running
  | doneOk
  | errSizeMismatch
  | faultBadMagic
  | faultBadEndMarker
  | faultShortInput
  | refusedEncPrecondition
  deriving DecidableEq, Repr

/-- Where an engine is in its call: MODEL'S OWN (log entry 3). -/
inductive Stage where
  /-- No call in progress (60_exceptions.md R139: "idle otherwise"). -/
  | idle
  /-- A call was handed over; its START operation runs next (42_decoder.md R81, 43_encoder.md R100). -/
  | start
  /-- START passed; the loop or FINISH runs next (42_decoder.md R82, 43_encoder.md R102). -/
  | loop
  deriving DecidableEq, Repr

/-- The two engines (10_state.md R10). -/
inductive Engine where
  | dec | enc
  deriving DecidableEq, Repr

/-- The pixel cache: 64 slots (10_state.md R24). -/
abbrev Cache := Vector Pixel Config.cacheSlots

/-- The decoder's state record (10_state.md R10). -/
structure DecState where
  /-- `IN`, with its length `IN_LEN` (20_memory.md R30, 10_state.md R21). -/
  inp : Memory
  /-- `HDR` (10_state.md R20). -/
  hdr : Header
  /-- `pos`, the program counter (10_state.md R16). -/
  pos : Nat
  /-- `px`, the current pixel (10_state.md R12). -/
  px : Pixel
  /-- `OUT` (20_memory.md R31). -/
  out : List Pixel
  /-- `outcnt` (10_state.md R15). -/
  outcnt : Nat
  /-- `CACHE` (10_state.md R24). -/
  cache : Cache
  /-- `STATUS` (10_state.md R22). -/
  status : Status
  /-- `ERR_PRODUCED` (10_state.md R23). -/
  errProduced : Nat
  /-- `ERR_EXPECTED` (10_state.md R23). -/
  errExpected : BitVec 64
  /-- `DIAG_FOUND` (10_state.md R23). -/
  diagFound : List Byte
  /-- MODEL'S OWN (log entry 3). -/
  stage : Stage
  deriving DecidableEq, Repr

/-- The encoder's state record (10_state.md R10). -/
structure EncState where
  /-- `PIX`, with its length `PIX_LEN` (20_memory.md R32, 10_state.md R21). -/
  pix : List Pixel
  /-- The call argument `header_config` (10_state.md R27). -/
  cfg : Header
  /-- `HDR` (10_state.md R20). -/
  hdr : Header
  /-- `ipx`, the encoder's program counter (10_state.md R18). -/
  ipx : Nat
  /-- `prev`, the previous pixel (10_state.md R13). -/
  prev : Pixel
  /-- `run`, 6 bits (10_state.md R14). -/
  run : BitVec 6
  /-- `OUTB` (20_memory.md R33). -/
  outb : Memory
  /-- `CACHE` (10_state.md R24). -/
  cache : Cache
  /-- `STATUS` (10_state.md R22). -/
  status : Status
  /-- MODEL'S OWN (log entry 3). -/
  stage : Stage
  deriving DecidableEq, Repr

/-- The whole block, `Config.blockName`. -/
structure State where
  dec : DecState
  enc : EncState
  /-- MODEL'S OWN: the engine the next step belongs to when both have a call in progress
  (log entry 4). -/
  turn : Engine
  deriving DecidableEq, Repr

/-- Why the machine stops. The spec's own faults are states, not stops (60_exceptions.md R129). -/
inductive Fault where
  /-- Raised by `step` alone, when `IN` ends inside the op at `pos`. Safe: 20_memory.md R38 says no
  read of a running decoder is out of bounds, and the model never gets here (log entry 8). -/
  | fetchOutsideIn (pos : Nat)
  deriving DecidableEq, Repr

/-- Why the machine gives no meaning. -/
inductive Refusal where
  /-- An arm of `exec` that has no meaning yet; no arm answers it. Safe. -/
  | notModelled (mnemonic : String)
  /-- Raised by the host moves `State.startDecode` and `State.startEncode` on an engine whose call
  has not ended: the host has no such move (60_exceptions.md R136, log entry 9). Safe. -/
  | engineBusy (engine : Engine)
  deriving DecidableEq, Repr

/-- A header register nothing has written: all fields 0 (log entry 1). -/
def Header.reset : Header := ⟨0, 0, false, false⟩

/-- All 64 slots the zero pixel (41_cache.md R80). -/
def Cache.reset : Cache := Vector.replicate Config.cacheSlots Config.zeroPixel

/-- The decoder at the start of a call, before any argument is handed over (10_state.md R28; HDR,
ERR_PRODUCED, ERR_EXPECTED and DIAG_FOUND by log entry 1, IN by log entry 2, stage by log entry 3). -/
def DecState.reset : DecState where
  inp := Memory.empty
  hdr := Header.reset
  pos := Config.headerLen
  px := Config.pxReset
  out := []
  outcnt := 0
  cache := Cache.reset
  status := .running
  errProduced := 0
  errExpected := 0
  diagFound := []
  stage := .idle

/-- The encoder at the start of a call, before any argument is handed over (10_state.md R28; cfg and
HDR by log entry 1, PIX by log entry 2, stage by log entry 3). -/
def EncState.reset : EncState where
  pix := []
  cfg := Header.reset
  hdr := Header.reset
  ipx := 0
  prev := Config.pxReset
  run := 0
  outb := Memory.empty
  cache := Cache.reset
  status := .running
  stage := .idle

/-- The block right after reset (10_state.md R28, 70_reset_and_hazards.md R140; turn by log
entry 4). -/
def State.reset : State := ⟨DecState.reset, EncState.reset, .dec⟩

end Sys2Proof.Machine
end

