-- ==== Sys2Proof/Machine/Operands.lean ====
section
/-! DEFINITION. What the engines compute from operands: wrap-around channel arithmetic, the hash,
the channel deltas, the pixel word and the image size. -/

namespace Sys2Proof.Machine

/-- `wrap8(x) = x mod 256` (00_scope.md R8). -/
def wrap8 (x : Int) : Byte := BitVec.ofInt 8 x

/-- A channel plus a signed delta, wrap-around and never saturating (42_decoder.md R90, R91). -/
def addWrap (c : Byte) (d : Int) : Byte := wrap8 ((c.toNat : Int) + d)

/-- `sext_8(b)`: `b` if `b < 128`, else `b - 256` (00_scope.md R8). -/
def sext8 (b : Byte) : Int := if b.toNat < 128 then (b.toNat : Int) else (b.toNat : Int) - 256

/-- The channel difference read as a signed byte, `sext_8(wrap8(cur - prev))` (43_encoder.md R113). -/
def deltaChannel (cur prev : Byte) : Int := sext8 (wrap8 ((cur.toNat : Int) - (prev.toNat : Int)))

/-- The three channel deltas of a pixel against the previous one. -/
structure Deltas where
  dr : Int
  dg : Int
  db : Int
  deriving DecidableEq, Repr

/-- `Delta(cur, prev)` (43_encoder.md R113). -/
def delta (cur prev : Pixel) : Deltas :=
  ⟨deltaChannel cur.r prev.r, deltaChannel cur.g prev.g, deltaChannel cur.b prev.b⟩

/-- The pixel after red, green and blue are shifted by deltas, alpha kept (42_decoder.md R90, R91). -/
def shiftPixel (p : Pixel) (dr dg db : Int) : Pixel :=
  ⟨addWrap p.r dr, addWrap p.g dg, addWrap p.b db, p.a⟩

/-- `H(p) = (R*3 + G*5 + B*7 + A*11) mod 64` over natural numbers, with `HASH_MUL` and `CACHE_SLOTS`
(41_cache.md R73). -/
def pixelHash (p : Pixel) : Slot :=
  let (mr, mg, mb, ma) := Config.hashMul
  Fin.ofNat Config.cacheSlots (p.r.toNat * mr + p.g.toNat * mg + p.b.toNat * mb + p.a.toNat * ma)

/-- `image_size() = width * height`, exact, not reduced (40_header.md R68). -/
def Header.imageSize (h : Header) : Nat := h.width.toNat * h.height.toNat

end Sys2Proof.Machine

namespace Sys2Proof

/-- `Word(p)`, the 32-bit word of a pixel at the pixel port (20_memory.md R35). -/
def Pixel.word (p : Pixel) : BitVec Config.pixelBits := be32 p.r p.g p.b p.a

/-- The pixel a 32-bit word at the pixel port stands for (20_memory.md R35). -/
def Pixel.ofWord (w : BitVec Config.pixelBits) : Pixel :=
  ⟨w.extractLsb' 24 8, w.extractLsb' 16 8, w.extractLsb' 8 8, w.extractLsb' 0 8⟩

end Sys2Proof
end

