-- ==== Sys2Proof/Machine/Flags.lean ====
section
/-! DEFINITION. The flag-like values of the block. It has no condition codes (10_state.md R19): what
there is are the two header flags, the status codes and the range tests of the encoder's choices. -/

namespace Sys2Proof.Machine

/-- `linear_rgb` from the colorspace byte: 0 is clear, every other value set (40_header.md R67). -/
def linearFlag (s : Byte) : Bool := s != 0

/-- The channels byte, `3 + has_alpha` (40_header.md R69). -/
def channelsByte (hasAlpha : Bool) : Byte := if hasAlpha then 4 else 3

/-- The colorspace byte, 0 or 1 (40_header.md R69). -/
def colorspaceByte (linear : Bool) : Byte := if linear then 1 else 0

/-- The code of a status value (60_exceptions.md R123). -/
def Status.code : Status → Nat
  | .running => 0
  | .doneOk => 1
  | .errSizeMismatch => 2
  | .faultBadMagic => 3
  | .faultBadEndMarker => 4
  | .faultShortInput => 5
  | .refusedEncPrecondition => 6

/-- The DIFF condition on the deltas (43_encoder.md R108). -/
abbrev Deltas.fitDiff (d : Deltas) : Prop :=
  inDiffRange d.dr ∧ inDiffRange d.dg ∧ inDiffRange d.db

/-- The LUMA condition on the deltas, the differences plain integers (43_encoder.md R109). -/
abbrev Deltas.fitLuma (d : Deltas) : Prop :=
  inLumaGRange d.dg ∧ inLumaRBRange (d.dr - d.dg) ∧ inLumaRBRange (d.db - d.dg)

end Sys2Proof.Machine
end

