-- ==== Sys2Proof/Machine/Ops.lean ====
section
/-! DEFINITION. The named operations over byte spaces, pixel buffers, cache and registers, and
`raise`, the one shared operation that ends a call otherwise than with its result. -/

namespace Sys2Proof.Machine

/-! ### Byte spaces -/

/-- The byte the cells give at an address. -/
def Memory.lookup (a : Nat) : List Host.Cell → Byte
  | [] => Memory.unlistedByte
  | (k, b) :: rest => if k = a then b else Memory.lookup a rest

/-- The byte at an address, none where the space has no such byte. -/
def Memory.read? (m : Memory) (a : Nat) : Option Byte :=
  if a < m.len then some (Memory.lookup a m.cells) else none

/-- `MemRead(S, a, n)`: the bytes at `a`, `a+1`, ... in that order (00_scope.md R8); where the space
ends earlier, the bytes there are. -/
def Memory.readList (m : Memory) : Nat → Nat → List Byte
  | _, 0 => []
  | a, n + 1 =>
    match m.read? a with
    | some b => b :: Memory.readList m (a + 1) n
    | none => []

/-- Put one cell into a canonical list. -/
def Memory.insertCell (a : Nat) (b : Byte) : List Host.Cell → List Host.Cell
  | [] => if b = Memory.unlistedByte then [] else [(a, b)]
  | (k, c) :: rest =>
    if k < a then (k, c) :: Memory.insertCell a b rest
    else
      (if b = Memory.unlistedByte then [] else [(a, b)]) ++ (if k = a then rest else (k, c) :: rest)

/-- Write one byte; a write at or above the length makes the space that long. -/
def Memory.write (m : Memory) (a : Nat) (b : Byte) : Memory :=
  ⟨Memory.insertCell a b m.cells, max m.len (a + 1)⟩

/-- Write bytes at rising addresses. -/
def Memory.writeList (m : Memory) : Nat → List Byte → Memory
  | _, [] => m
  | a, b :: bs => Memory.writeList (m.write a b) (a + 1) bs

/-- `Emit(b0, ..., bk)`: append bytes at the end of the space (00_scope.md R8). -/
def Memory.emit (m : Memory) (bs : List Byte) : Memory := m.writeList m.len bs

/-- The byte space that holds the bytes. -/
def Memory.ofBytes (bs : List Byte) : Memory := Memory.empty.emit bs

/-- The whole space as a byte sequence. -/
def Memory.bytes (m : Memory) : List Byte := m.readList 0 m.len

/-! ### Cache (41_cache.md) -/

/-- `CACHE[i]` (41_cache.md R75). -/
def Cache.read (c : Cache) (i : Slot) : Pixel := c.get i

/-- `CacheUpdate(p)`: `CACHE[H(p)] <- p`, the 63 other slots kept (41_cache.md R76). -/
def Cache.update (c : Cache) (p : Pixel) : Cache := c.set (pixelHash p).val p (pixelHash p).isLt

/-! ### Decoder -/

/-- `END_POS = IN_LEN - 8` (10_state.md R17). -/
def DecState.endPos (d : DecState) : Nat := d.inp.len - Config.endMarkerLen

/-- The bytes at `pos` an op can be read from: as many as the longest op has, where `IN` has them
(42_decoder.md R84). -/
def DecState.fetchBytes (d : DecState) : List Byte := d.inp.readList d.pos maxOpLen

/-- `px <- p`. -/
def DecState.setPx (d : DecState) (p : Pixel) : DecState := { d with px := p }

/-- `OutPush(p)`: append to `OUT` and add 1 to `outcnt` (00_scope.md R8). -/
def DecState.outPush (d : DecState) (p : Pixel) : DecState :=
  { d with out := d.out ++ [p], outcnt := d.outcnt + 1 }

/-- `repeat n times: OutPush(p)` (42_decoder.md R92). -/
def DecState.outPushTimes (p : Pixel) : Nat → DecState → DecState
  | 0, d => d
  | n + 1, d => DecState.outPushTimes p n (d.outPush p)

/-- `TAIL(len)`: `CacheUpdate(px)`, then `pos <- pos + len` (42_decoder.md R86). -/
def DecState.tail (d : DecState) (len : Nat) : DecState :=
  { d with cache := d.cache.update d.px, pos := d.pos + len }

/-- What the five single-pixel ops do once their pixel is known: set `px`, append it, tail
(42_decoder.md R86: "compute `px`, append, update the cache, advance"). -/
def DecState.produce (d : DecState) (p : Pixel) (len : Nat) : DecState :=
  ((d.setPx p).outPush p).tail len

/-- Change the decoder only. -/
def State.onDec (s : State) (f : DecState → DecState) : State := { s with dec := f s.dec }

/-- Change the encoder only. -/
def State.onEnc (s : State) (f : EncState → EncState) : State := { s with enc := f s.enc }

/-! ### Encoder -/

/-- `PIX_LEN` (10_state.md R21). -/
def EncState.pixLen (e : EncState) : Nat := e.pix.length

/-- Emit the bytes of an op to `OUTB`. -/
def EncState.emitOp (e : EncState) (i : Instr) : EncState := { e with outb := e.outb.emit (encode i) }

/-! ### Ending a call (60_exceptions.md) -/

/-- A cause with the information it records (60_exceptions.md R123). The input length that
`FAULT_SHORT_INPUT` records is `IN_LEN`, which stays in the state. -/
inductive Cause where
  | sizeMismatch (produced expected : Nat)
  | badMagic (found : List Byte)
  | badEndMarker (found : List Byte)
  | shortInput
  | encPrecondition
  deriving DecidableEq, Repr

/-- The engine that raises a cause (60_exceptions.md R123). -/
def Cause.engine : Cause → Engine
  | .sizeMismatch _ _ => .dec
  | .badMagic _ => .dec
  | .badEndMarker _ => .dec
  | .shortInput => .dec
  | .encPrecondition => .enc

/-- The status value a cause ends the call with (60_exceptions.md R123). -/
def Cause.status : Cause → Status
  | .sizeMismatch _ _ => .errSizeMismatch
  | .badMagic _ => .faultBadMagic
  | .badEndMarker _ => .faultBadEndMarker
  | .shortInput => .faultShortInput
  | .encPrecondition => .refusedEncPrecondition

/-- `raise X(info)`: the engine that raises stops, `STATUS` and the result registers of X are
written, nothing else changes (60_exceptions.md R129). There is no handler to enter and no return
from it (R132). -/
def State.raise (s : State) : Cause → State
  | .sizeMismatch produced expected =>
    s.onDec fun d => { d with
      status := (Cause.sizeMismatch produced expected).status, errProduced := produced,
      errExpected := BitVec.ofNat 64 expected, stage := .idle }
  | .badMagic found =>
    s.onDec fun d => { d with
      status := (Cause.badMagic found).status, diagFound := found, stage := .idle }
  | .badEndMarker found =>
    s.onDec fun d => { d with
      status := (Cause.badEndMarker found).status, diagFound := found, stage := .idle }
  | .shortInput => s.onDec fun d => { d with status := Cause.shortInput.status, stage := .idle }
  | .encPrecondition =>
    s.onEnc fun e => { e with status := Cause.encPrecondition.status, stage := .idle }

/-! ### Which engine moves -/

/-- The engine has a call in progress. -/
def State.busy (s : State) : Engine → Bool
  | .dec => decide (s.dec.stage ≠ .idle)
  | .enc => decide (s.enc.stage ≠ .idle)

/-- The other engine. -/
def Engine.other : Engine → Engine
  | .dec => .enc
  | .enc => .dec

/-- The engine the next step belongs to: the one whose turn it is if it is busy, else the other if
that is busy, else none (log entry 4). -/
def State.mover (s : State) : Option Engine :=
  if s.busy s.turn then some s.turn
  else if s.busy s.turn.other then some s.turn.other
  else none

/-! ### Placing one op before the decoder -/

/-- The bytes stand at `pos` and the decoder is in its loop with the next step its own: what a loaded
stream and a passed DEC.START leave (log entry 5). `IN` is made long enough for an end marker after
the bytes. -/
def State.placeOp (s : State) (bs : List Byte) : State :=
  { s with
    dec := { s.dec with
      inp :=
        ⟨(s.dec.inp.writeList s.dec.pos bs).cells,
          max (s.dec.inp.writeList s.dec.pos bs).len (s.dec.pos + bs.length + Config.endMarkerLen)⟩
      status := .running
      stage := .loop }
    turn := .dec }

end Sys2Proof.Machine
end

