-- ==== Sys2Proof/Machine/Header.lean ====
section
/-! DEFINITION. The header unit: parse and serialize of the 14-byte record (40_header.md). -/

namespace Sys2Proof.Machine

/-- `HDR.PARSE` of the 14 header bytes: the record, or the four bytes found where the magic should
be (40_header.md R64 to R67). The caller has checked that there are 14 bytes. -/
def hdrParse (bs : List Byte) : Except (List Byte) Header :=
  if bs.take 4 = Config.magic then
    .ok {
      width := be32 (bs.getD 4 0) (bs.getD 5 0) (bs.getD 6 0) (bs.getD 7 0)
      height := be32 (bs.getD 8 0) (bs.getD 9 0) (bs.getD 10 0) (bs.getD 11 0)
      hasAlpha := Config.chanFlag (bs.getD 12 0)
      linearRgb := linearFlag (bs.getD 13 0) }
  else .error (bs.take 4)

/-- `HDR.SERIALIZE`: the 14 bytes of a record (40_header.md R69). -/
def hdrSerialize (h : Header) : List Byte :=
  headerLine h.width h.height (channelsByte h.hasAlpha) (colorspaceByte h.linearRgb)

end Sys2Proof.Machine
end

