-- ==== Sys2Proof/Machine/Decoder.lean ====
section
/-! DEFINITION. The decoder's operations that are not ops: DEC.START and DEC.FINISH
(42_decoder.md R81, R93). -/

namespace Sys2Proof.Machine

/-- The registers the last lines of `DEC.START` set (42_decoder.md R81). -/
def DecState.initLoop (d : DecState) (h : Header) : DecState :=
  { d with
    hdr := h
    pos := Config.headerLen
    px := Config.pxReset
    outcnt := 0
    out := []
    cache := Cache.reset
    stage := .loop }

/-- `DEC.START`: length below 14, then magic, then length below 22, then the loop's first state
(42_decoder.md R81). A missing end marker is found after the parse, so `HDR` is then written. -/
def decStart (s : State) : State :=
  let s0 := s.onDec fun d => { d with status := .running }
  let inp := s.dec.inp
  if inp.len < Config.headerLen then s0.raise .shortInput
  else
    match hdrParse (inp.readList 0 Config.headerLen) with
    | .error found => s0.raise (.badMagic found)
    | .ok h =>
      if inp.len < Config.headerLen + Config.endMarkerLen then
        (s0.onDec fun d => { d with hdr := h }).raise
          (.badEndMarker (inp.readList Config.headerLen (inp.len - Config.headerLen)))
      else s0.onDec fun d => d.initLoop h

/-- `DEC.FINISH`: overrun, then the marker bytes, then the pixel count (42_decoder.md R93). -/
def decFinish (s : State) : State :=
  let found := s.dec.inp.readList s.dec.endPos Config.endMarkerLen
  if s.dec.pos ≠ s.dec.endPos then s.raise (.badEndMarker found)
  else if found ≠ Config.endMarker then s.raise (.badEndMarker found)
  else if s.dec.outcnt ≠ s.dec.hdr.imageSize then
    s.raise (.sizeMismatch s.dec.outcnt s.dec.hdr.imageSize)
  else s.onDec fun d => { d with status := .doneOk, stage := .idle }

/-- The loop test: an op is due at `pos`, else `DEC.FINISH` is (42_decoder.md R84). -/
abbrev DecState.opDue (d : DecState) : Prop := d.pos < d.endPos

end Sys2Proof.Machine
end

