-- ==== Sys2Proof/Machine/Cached.lean ====
section
/-! DEFINITION. The op that reads the cache, INDEX. -/

namespace Sys2Proof.Machine

/-- `INDEX i`: take the pixel in slot `i`, read before the update of this op (42_decoder.md R89). -/
def execIndex (i : Slot) (s : State) : Host.Outcome State Fault Refusal :=
  .next (s.onDec fun d => d.produce (d.cache.read i) OpKind.index.length)

end Sys2Proof.Machine
end

