-- ==== Sys2Proof/Machine/Delta.lean ====
section
/-! DEFINITION. The delta ops, DIFF and LUMA. -/

namespace Sys2Proof.Machine

/-- `DIFF dr, dg, db`: wrap-around change of each channel, alpha kept (42_decoder.md R90). -/
def execDiff (dr dg db : Int) (s : State) : Host.Outcome State Fault Refusal :=
  .next (s.onDec fun d => d.produce (shiftPixel d.px dr dg db) OpKind.diff.length)

/-- `LUMA dg, drg, dbg`: green by `dg`, red by `dg + drg`, blue by `dg + dbg`, reduced once
(42_decoder.md R91). -/
def execLuma (dg drg dbg : Int) (s : State) : Host.Outcome State Fault Refusal :=
  .next (s.onDec fun d => d.produce (shiftPixel d.px (dg + drg) dg (dg + dbg)) OpKind.luma.length)

end Sys2Proof.Machine
end

