-- ==== Sys2Proof/Machine/Literal.lean ====
section
/-! DEFINITION. The literal ops, RGBA and RGB. -/

namespace Sys2Proof.Machine

/-- `RGBA r, g, b, a`: literal pixel, all four channels (42_decoder.md R87). -/
def execRgba (r g b a : Byte) (s : State) : Host.Outcome State Fault Refusal :=
  .next (s.onDec fun d => d.produce ⟨r, g, b, a⟩ OpKind.rgba.length)

/-- `RGB r, g, b`: literal pixel, alpha kept (42_decoder.md R88). -/
def execRgb (r g b : Byte) (s : State) : Host.Outcome State Fault Refusal :=
  .next (s.onDec fun d => d.produce ⟨r, g, b, d.px.a⟩ OpKind.rgb.length)

end Sys2Proof.Machine
end

