-- ==== Sys2Proof/Machine/Run.lean ====
section
/-! DEFINITION. The repeat op, RUN. -/

namespace Sys2Proof.Machine

/-- `RUN n`: append `px` exactly `n` times, `px` kept, then the tail (42_decoder.md R92). -/
def execRun (n : Nat) (s : State) : Host.Outcome State Fault Refusal :=
  .next (s.onDec fun d => (DecState.outPushTimes d.px n d).tail OpKind.run.length)

end Sys2Proof.Machine
end

