-- ==== Sys2Proof/Machine/Encoder.lean ====
section
/-! DEFINITION. The encoder: ENC.START, ENC.STEP and ENC.FINISH (43_encoder.md). What it emits is
written as ops; their bytes are `encode`'s. -/

namespace Sys2Proof.Machine

/-- `ENC.START`: take the header, refuse a buffer of the wrong length, else emit the header and set
the first state (43_encoder.md R100, R101). -/
def encStart (s : State) : State :=
  let s0 := s.onEnc fun e => { e with status := .running, hdr := e.cfg }
  if s0.enc.pixLen ≠ s0.enc.hdr.imageSize then s0.raise .encPrecondition
  else
    s0.onEnc fun e => { e with
      outb := Memory.empty.emit (hdrSerialize e.hdr)
      prev := Config.pxReset
      run := 0
      ipx := 0
      cache := Cache.reset
      stage := .loop }

/-- `FLUSH_RUN`: emit one RUN op for the pending run, update the cache with `prev`, clear `run`
(43_encoder.md R105). -/
def EncState.flushRun (e : EncState) : EncState :=
  { e.emitOp (.run e.run.toNat) with cache := e.cache.update e.prev, run := 0 }

/-- `if run > 0: FLUSH_RUN` (43_encoder.md R102, R114). -/
def EncState.flushIfPending (e : EncState) : EncState := if e.run = 0 then e else e.flushRun

/-- Choices 2 to 6, in strict precedence: INDEX, DIFF, LUMA, RGB, RGBA
(43_encoder.md R103, R106 to R111). -/
def EncState.chooseOp (e : EncState) (cur : Pixel) : Instr :=
  if e.cache.read (pixelHash cur) = cur then .index (pixelHash cur)
  else if cur.a = e.prev.a then
    let d := delta cur e.prev
    if d.fitDiff then .diff d.dr d.dg d.db
    else if d.fitLuma then .luma d.dg (d.dr - d.dg) (d.db - d.dg)
    else .rgb cur.r cur.g cur.b
  else .rgba cur.r cur.g cur.b cur.a

/-- Choice 1: extend the run, flush at the cap (43_encoder.md R104). -/
def EncState.extendRun (e : EncState) : EncState :=
  let e1 := { e with run := e.run + 1 }
  if e1.run = BitVec.ofNat 6 Config.runMax then e1.flushRun else e1

/-- A pixel that differs from `prev`: flush a pending run, emit the chosen op, then update the cache
and `prev` with the pixel (43_encoder.md R102, R112). -/
def EncState.encodePixel (e : EncState) (cur : Pixel) : EncState :=
  let e1 := e.flushIfPending
  { e1.emitOp (e1.chooseOp cur) with cache := e1.cache.update cur, prev := cur }

/-- `ENC.STEP` on the pixel at `ipx` (43_encoder.md R102). -/
def encStepPixel (cur : Pixel) (s : State) : State :=
  s.onEnc fun e =>
    let e1 := if cur = e.prev then e.extendRun else e.encodePixel cur
    { e1 with ipx := e1.ipx + 1 }

/-- `ENC.FINISH`: flush a pending run, emit the end marker (43_encoder.md R114). -/
def encFinish (s : State) : State :=
  s.onEnc fun e =>
    let e1 := e.flushIfPending
    { e1 with outb := e1.outb.emit Config.endMarker, status := .doneOk, stage := .idle }

/-- The encoder's move: START, then one pixel a step while `ipx < PIX_LEN`, then FINISH
(43_encoder.md R102, ENC.RUN). -/
def encMove (s : State) : State :=
  match s.enc.stage with
  | .idle => s
  | .start => encStart s
  | .loop =>
    match s.enc.pix[s.enc.ipx]? with
    | some cur => encStepPixel cur s
    | none => encFinish s

end Sys2Proof.Machine
end

