-- ==== Sys2Proof/Machine/HostPort.lean ====
section
/-! DEFINITION. The host interface (60_exceptions.md R136): the two moves that start a call and the
views of a result. `step` takes none of them. -/

namespace Sys2Proof.Machine

/-- The host starts a decode with the bytes of `IN`. Every register of the engine takes its value at
the start of a call (10_state.md R28, 70_reset_and_hazards.md R140); DEC.START runs next. A busy
engine gives the host no such move (log entry 9). -/
def State.startDecode (bytes : List Byte) (s : State) : Host.Outcome State Fault Refusal :=
  if s.busy .dec then .refused (.engineBusy .dec)
  else .next { s with dec := { DecState.reset with inp := Memory.ofBytes bytes, stage := .start } }

/-- The host starts an encode with the pixels of `PIX` and the header configuration. Every register
of the engine takes its value at the start of a call, `HDR` the configuration (10_state.md R28);
ENC.START runs next. A busy engine gives the host no such move (log entry 9). -/
def State.startEncode (pix : List Pixel) (cfg : Header) (s : State) :
    Host.Outcome State Fault Refusal :=
  if s.busy .enc then .refused (.engineBusy .enc)
  else
    .next { s with
      enc := { EncState.reset with pix := pix, cfg := cfg, hdr := cfg, stage := .start } }

/-- What a decode hands back (42_decoder.md R94). -/
inductive DecodeResult where
  /-- `DONE_OK`: the pixels and the header. -/
  | image (out : List Pixel) (hdr : Header)
  /-- `ERR_SIZE_MISMATCH`: the two counts and no pixels. -/
  | sizeMismatch (produced : Nat) (expected : BitVec 64)
  /-- `FAULT_BAD_MAGIC`, `FAULT_BAD_END_MARKER`: the bytes found. -/
  | badMagic (found : List Byte)
  | badEndMarker (found : List Byte)
  /-- `FAULT_SHORT_INPUT`: the input length. -/
  | shortInput (len : Nat)
  deriving DecidableEq, Repr

/-- The result of the decode call, none while it runs (42_decoder.md R94). The buffer of a call that
did not end in `DONE_OK` is not part of it. -/
def State.decodeResult (s : State) : Option DecodeResult :=
  match s.dec.status with
  | .doneOk => some (.image s.dec.out s.dec.hdr)
  | .errSizeMismatch => some (.sizeMismatch s.dec.errProduced s.dec.errExpected)
  | .faultBadMagic => some (.badMagic s.dec.diagFound)
  | .faultBadEndMarker => some (.badEndMarker s.dec.diagFound)
  | .faultShortInput => some (.shortInput s.dec.inp.len)
  | .running => none
  | .refusedEncPrecondition => none

/-- The bytes of the encode call, handed over at `DONE_OK` only (60_exceptions.md R136). -/
def State.encodeResult (s : State) : Option (List Byte) :=
  match s.enc.status with
  | .doneOk => some s.enc.outb.bytes
  | .running => none
  | .errSizeMismatch => none
  | .faultBadMagic => none
  | .faultBadEndMarker => none
  | .faultShortInput => none
  | .refusedEncPrecondition => none

end Sys2Proof.Machine
end

