-- ==== Sys2Proof/Machine/Step.lean ====
section
/-! DEFINITION. One step of the block: the engine that is to move runs START, one op or one pixel, or
FINISH (42_decoder.md R82, 43_encoder.md R102, 70_reset_and_hazards.md R154). -/

namespace Sys2Proof.Machine

/-- The decoder's move: START; then one op while `pos < END_POS`; then FINISH
(42_decoder.md R82, R84, R85). -/
def decMove (s : State) : Host.Outcome State Fault Refusal :=
  match s.dec.stage with
  | .idle => .next s
  | .start => .next (decStart s)
  | .loop =>
    if s.dec.opDue then
      match decode s.dec.fetchBytes with
      | .ok (i, _) => exec i s
      | .error _ => .fault (.fetchOutsideIn s.dec.pos)
    else .next (decFinish s)

/-- One step. With no call in progress the block is idle (60_exceptions.md R139). -/
def step (s : State) : Host.Outcome State Fault Refusal :=
  match s.mover with
  | some .dec => decMove s
  | some .enc => .next (encMove s)
  | none => .next s

/-- The state whose next step fetches and runs exactly the op of the table word (log entry 5). -/
def State.withFetchWord (s : State) (nbits w : Nat) : State := s.placeOp (tableWordBytes nbits w)

end Sys2Proof.Machine
end

