-- ==== Sys2Proof/Safety.lean ====
section
/-! DEFINITION. What a claim may rely on: the invariant of the block, where an engine stands before a
step, what an op leaves changed and unchanged, and when a call has ended. -/

namespace Sys2Proof.Machine

/-! ### The invariant -/

/-- The most recent pixel of a sequence whose hash is `h`, or the zero pixel if there is none
(41_cache.md R77). -/
def lastWithHash (h : Slot) (emitted : List Pixel) : Pixel :=
  (emitted.filter fun p => pixelHash p == h).getLastD Config.zeroPixel

/-- Every slot holds the most recently emitted pixel of its hash (41_cache.md R77). -/
def Cache.Reflects (c : Cache) (emitted : List Pixel) : Prop :=
  ∀ h, c.read h = lastWithHash h emitted

/-- The decoder's invariant. -/
structure DecState.Inv (d : DecState) : Prop where
  /-- `IN` is in canonical form. -/
  inWf : d.inp.wf = true
  /-- `outcnt` counts the pixels of `OUT` (10_state.md R15). -/
  counted : d.outcnt = d.out.length
  /-- No op stands before offset 14 (20_memory.md R39). -/
  posLow : Config.headerLen ≤ d.pos
  /-- `px` is the last pixel of `OUT`, or the reset pixel (10_state.md R12). -/
  lastPixel : d.px = d.out.getLastD Config.pxReset
  /-- The cache invariant (41_cache.md R77). -/
  cacheLast : d.cache.Reflects d.out
  /-- A call that has been handed over is `RUNNING` (10_state.md R22). -/
  starting : d.stage = .start → d.status = .running
  /-- In the loop: `RUNNING`, at least 22 bytes (42_decoder.md R81), `pos` at most `END_POS + 4`
  (10_state.md R16), `HDR` the parse of the first 14 bytes (40_header.md R64). -/
  looping : d.stage = .loop →
    d.status = .running ∧ Config.headerLen + Config.endMarkerLen ≤ d.inp.len ∧
      d.pos ≤ d.endPos + 4 ∧ hdrParse (d.inp.readList 0 Config.headerLen) = .ok d.hdr

/-- The pixels the encoder has consumed and written out: all but the pending run. -/
def EncState.flushed (e : EncState) : List Pixel := e.pix.take (e.ipx - e.run.toNat)

/-- The encoder's invariant. -/
structure EncState.Inv (e : EncState) : Prop where
  /-- `OUTB` is in canonical form. -/
  outWf : e.outb.wf = true
  /-- Between steps `run` is at most 61 (10_state.md R14). -/
  runCap : e.run.toNat < Config.runMax
  /-- `0 <= ipx <= PIX_LEN` (10_state.md R18). -/
  ipxBound : e.ipx ≤ e.pixLen
  /-- The pending run is of consumed pixels. -/
  runBound : e.run.toNat ≤ e.ipx
  /-- The pending run's pixels all equal `prev` (10_state.md R14). -/
  pending : e.pix.take e.ipx = e.flushed ++ List.replicate e.run.toNat e.prev
  /-- `prev` is the last pixel written out, or the reset pixel (10_state.md R13). -/
  prevLast : e.prev = e.flushed.getLastD Config.pxReset
  /-- The cache invariant at the last op boundary (41_cache.md R77). -/
  cacheLast : e.cache.Reflects e.flushed
  /-- A call that has been handed over is `RUNNING` (10_state.md R22). -/
  starting : e.stage = .start → e.status = .running
  /-- In the loop: `RUNNING`, the length matches (43_encoder.md R101), `HDR` is the configuration,
  and the bytes so far lie between one for 62 pixels and five for one (43_encoder.md R115). -/
  looping : e.stage = .loop →
    e.status = .running ∧ e.pixLen = e.hdr.imageSize ∧ e.hdr = e.cfg ∧
      Config.headerLen ≤ e.outb.len ∧
      e.flushed.length ≤ Config.runMax * (e.outb.len - Config.headerLen) ∧
      e.outb.len ≤ Config.headerLen + 5 * e.flushed.length

/-- The invariant of the block. -/
structure State.Inv (s : State) : Prop where
  dec : s.dec.Inv
  enc : s.enc.Inv

/-! ### Where an engine stands before a step -/

/-- The next step is the decoder's and runs an op: the loop test `pos < END_POS` holds
(42_decoder.md R84). -/
def State.AtOp (s : State) : Prop :=
  s.mover = some .dec ∧ s.dec.stage = .loop ∧ s.dec.pos < s.dec.endPos

/-- The next step is the decoder's and is DEC.FINISH: the loop test fails (42_decoder.md R84). -/
def State.AtDecFinish (s : State) : Prop :=
  s.mover = some .dec ∧ s.dec.stage = .loop ∧ s.dec.endPos ≤ s.dec.pos

/-- The next step is the decoder's and is DEC.START (42_decoder.md R81). -/
def State.AtDecStart (s : State) : Prop := s.mover = some .dec ∧ s.dec.stage = .start

/-- The next step is the encoder's and consumes the pixel `cur` (43_encoder.md R102). -/
def State.AtPixel (s : State) (cur : Pixel) : Prop :=
  s.mover = some .enc ∧ s.enc.stage = .loop ∧ s.enc.pix[s.enc.ipx]? = some cur

/-- The next step is the encoder's and is ENC.FINISH: no pixel is left (43_encoder.md R114). -/
def State.AtEncFinish (s : State) : Prop :=
  s.mover = some .enc ∧ s.enc.stage = .loop ∧ s.enc.pixLen ≤ s.enc.ipx

/-- The next step is the encoder's and is ENC.START (43_encoder.md R100). -/
def State.AtEncStart (s : State) : Prop := s.mover = some .enc ∧ s.enc.stage = .start

/-! ### What an op changes and leaves -/

/-- The whole effect and frame of an op (10_state.md R29): `px` becomes `p`; `n` copies of `p` are
appended and counted; the slot `H(p)` holds `p` and the 63 other slots are kept; `pos` advances by
`len`; `IN` at every address, the header, the status and result registers, the encoder and the
model's own fields are unchanged. -/
structure OpEffect (s t : State) (p : Pixel) (n len : Nat) : Prop where
  px : t.dec.px = p
  out : t.dec.out = s.dec.out ++ List.replicate n p
  outcnt : t.dec.outcnt = s.dec.outcnt + n
  slot : t.dec.cache.read (pixelHash p) = p
  otherSlots : ∀ h, h ≠ pixelHash p → t.dec.cache.read h = s.dec.cache.read h
  pos : t.dec.pos = s.dec.pos + len
  inBytes : ∀ a, t.dec.inp.read? a = s.dec.inp.read? a
  inLen : t.dec.inp.len = s.dec.inp.len
  hdr : t.dec.hdr = s.dec.hdr
  status : t.dec.status = s.dec.status
  errProduced : t.dec.errProduced = s.dec.errProduced
  errExpected : t.dec.errExpected = s.dec.errExpected
  diagFound : t.dec.diagFound = s.dec.diagFound
  stage : t.dec.stage = s.dec.stage
  enc : t.enc = s.enc
  turn : t.turn = s.turn

/-! ### What the encoder does with a pixel that differs from `prev` -/

/-- The bytes of the pending run: none, or one RUN byte (43_encoder.md R105). -/
def EncState.pendingBytes (e : EncState) : List Byte :=
  if e.run = 0 then [] else [0xC0#8 ||| BitVec.ofNat 8 (e.run.toNat - 1)]

/-- The cache the INDEX test reads: after the update of a pending run's flush, before the update for
the pixel itself (43_encoder.md R106). -/
def EncState.testCache (e : EncState) : Cache :=
  if e.run = 0 then e.cache else e.cache.update e.prev

/-- The whole effect and frame of an encoder step on a pixel that differs from `prev`
(10_state.md R29, 43_encoder.md R102, R112): the pending run's byte and then `bytes` are appended to
`OUTB`; the slot `H(cur)` holds `cur` and the others are those of the cache after the flush; `prev`
is `cur`, `run` is 0, `ipx` advances by one; the arguments, `HDR`, `STATUS`, the decoder and the
model's own fields are unchanged. -/
structure PixelEffect (s t : State) (cur : Pixel) (bytes : List Byte) : Prop where
  outb : t.enc.outb.bytes = s.enc.outb.bytes ++ s.enc.pendingBytes ++ bytes
  slot : t.enc.cache.read (pixelHash cur) = cur
  otherSlots : ∀ h, h ≠ pixelHash cur → t.enc.cache.read h = s.enc.testCache.read h
  prev : t.enc.prev = cur
  run : t.enc.run = 0
  ipx : t.enc.ipx = s.enc.ipx + 1
  pix : t.enc.pix = s.enc.pix
  cfg : t.enc.cfg = s.enc.cfg
  hdr : t.enc.hdr = s.enc.hdr
  status : t.enc.status = s.enc.status
  stage : t.enc.stage = s.enc.stage
  dec : t.dec = s.dec
  turn : t.turn = s.turn

/-! ### Sequences -/

/-- Run ops one after the other, stopping where one does not answer a next state. -/
def execAll : List Instr → State → Host.Outcome State Fault Refusal
  | [], s => .next s
  | i :: is, s =>
    match exec i s with
    | .next t => execAll is t
    | .fault r => .fault r
    | .refused r => .refused r

/-! ### The end of a call -/

/-- The decoder is the engine that moves whenever it is busy: its turn, or the encoder is idle. -/
def State.DecFirst (s : State) : Prop := s.turn = .dec ∨ s.enc.stage = .idle

/-- The encoder is the engine that moves whenever it is busy: its turn, or the decoder is idle. -/
def State.EncFirst (s : State) : Prop := s.turn = .enc ∨ s.dec.stage = .idle

/-- No call is in progress on the decoder. -/
def State.DecIdle (s : State) : Prop := s.dec.stage = .idle

/-- No call is in progress on the encoder. -/
def State.EncIdle (s : State) : Prop := s.enc.stage = .idle

/-- The five ways a decode ends (42_decoder.md R95). -/
def Status.endsDecode (x : Status) : Prop :=
  x = .doneOk ∨ x = .errSizeMismatch ∨ x = .faultBadMagic ∨ x = .faultBadEndMarker ∨
    x = .faultShortInput

/-- `n` steps of the machine answer the state `t`. -/
def Steps (n : Nat) (s t : State) : Prop := Host.Core.run core n s = .next t

end Sys2Proof.Machine
end

