-- ==== Sys2Proof/Certificates/Slice0/Obligations.lean ====
section
/-! DEFINITION. The statements for the provers. A docstring names the rule of spec/ the statement
formalises; where a clause rests on a decision of spec/92_eei_decisions.md or on a choice of the
model's, it says so. -/

open Sys2Proof Sys2Proof.Machine

/-! ### Encoding -/

/-- One word of each op, written out bit by bit from 30_encoding.md section 3, decodes to that op
(the field places of DIFF and LUMA are decisions D4 and D5). -/
def Obligations.WrittenOutWordsDecodeToTheirOps : Prop :=
  decode [0b11111111, 0b00010000, 0b00100000, 0b00110000, 0b01000000] =
      .ok (.rgba 16 32 48 64, []) ∧
    decode [0b11111110, 0b00010001, 0b00011110, 0b00110001] = .ok (.rgb 17 30 49, []) ∧
    decode [0b00100000] = .ok (.index 32, []) ∧
    decode [0b01110011] = .ok (.diff 1 (-2) 1, []) ∧
    decode [0b10100101, 0b01111001] = .ok (.luma 5 (-1) 1, []) ∧
    decode [0b11001101] = .ok (.run 14, [])

/-- 30_encoding.md R48: the exact tags first, then the top two bits; the map of the 256 byte values;
the masks; the slot of INDEX and the length of RUN. -/
def Obligations.LeadingByteSelectsTheOp : Prop :=
  ∀ b : Byte,
    (dispatch b =
      if b = 0xFF then .rgba else if b = 0xFE then .rgb
      else if b.extractLsb' 6 2 = 0b00#2 then .index else if b.extractLsb' 6 2 = 0b01#2 then .diff
      else if b.extractLsb' 6 2 = 0b10#2 then .luma else .run) ∧
    (dispatch b =
      if b.toNat ≤ 0x3F then .index else if b.toNat ≤ 0x7F then .diff
      else if b.toNat ≤ 0xBF then .luma else if b.toNat ≤ 0xFD then .run
      else if b.toNat = 0xFE then .rgb else .rgba) ∧
    (dispatch b = .index ↔ b &&& 0xC0 = 0x00) ∧ (dispatch b = .diff ↔ b &&& 0xC0 = 0x40) ∧
    (dispatch b = .luma ↔ b &&& 0xC0 = 0x80) ∧
    (dispatch b = .run ↔ b &&& 0xC0 = 0xC0 ∧ b.toNat < 0xFE) ∧
    (dispatch b = .rgb ↔ b &&& 0xFF = 0xFE) ∧ (dispatch b = .rgba ↔ b &&& 0xFF = 0xFF) ∧
    (∀ rest, dispatch b = .index →
      ∃ i : Slot, i.val = (b.extractLsb' 0 6).toNat ∧ decode (b :: rest) = .ok (.index i, rest)) ∧
    (∀ rest, dispatch b = .run →
      ∃ n, n = (b.extractLsb' 0 6).toNat + 1 ∧ 1 ≤ n ∧ n ≤ 62 ∧
        decode (b :: rest) = .ok (.run n, rest)) ∧
    (dispatch b).length =
      if b = 0xFF then 5 else if b = 0xFE then 4 else if dispatch b = .luma then 2 else 1

/-- 30_encoding.md section 5 (no illegal encoding): any leading byte followed by enough bytes decodes
to a well-formed op of its kind, and what is left is the bytes after its payload. -/
def Obligations.EveryOpWithItsPayloadDecodes : Prop :=
  ∀ (b : Byte) (rest : List Byte), (dispatch b).length ≤ rest.length + 1 →
    ∃ i : Instr, i.wf = true ∧ i.kind = dispatch b ∧
      decode (b :: rest) = .ok (i, rest.drop ((dispatch b).length - 1))

/-- Decoding the bytes of a well-formed op gives the op back, whatever bytes follow. -/
def Obligations.DecodeOfEncodeIsIdentity : Prop :=
  ∀ (i : Instr) (rest : List Byte), i.wf = true → decode (encode i ++ rest) = .ok (i, rest)

/-- What the decoder reads is well-formed, and its bytes are the bytes read: no two ops share a
byte sequence and no bit is dropped. -/
def Obligations.EncodeOfDecodeIsIdentity : Prop :=
  ∀ (bs : List Byte) (i : Instr) (rest : List Byte), decode bs = .ok (i, rest) →
    i.wf = true ∧ encode i ++ rest = bs

/-! ### A step of the decoder -/

/-- A step of the decoder in its loop is `exec` of the op decoded at `pos`, with nothing around it. -/
def Obligations.StepRunsTheDecodedOp : Prop :=
  ∀ (s : State) (i : Instr) (rest : List Byte),
    s.AtOp → decode s.dec.fetchBytes = .ok (i, rest) → step s = exec i s

/-- 20_memory.md section 4 (an inference the spec marks as its own): an op fetched before `END_POS`
decodes whole, and every byte of it lies inside `IN`. -/
def Obligations.RunningDecoderReadsInsideIn : Prop :=
  ∀ s : State, s.AtOp →
    ∃ (b : Byte) (i : Instr) (rest : List Byte),
      s.dec.inp.read? s.dec.pos = some b ∧ decode s.dec.fetchBytes = .ok (i, rest) ∧
        i.wf = true ∧ i.kind = dispatch b ∧
        ∀ k, k < (dispatch b).length → s.dec.pos + k < s.dec.inp.len

/-- No state stops the machine: every step answers a next state. -/
def Obligations.EveryStepAnswersNext : Prop :=
  ∀ s : State, ∃ t, step s = .next t

/-! ### The six ops: result, completion and frame -/

/-- 42_decoder.md R87. -/
def Obligations.RgbaLoadsAllFourChannels : Prop :=
  ∀ (s : State) (r g b a : Byte),
    (∃ t, exec (.rgba r g b a) s = .next t ∧ OpEffect s t ⟨r, g, b, a⟩ 1 5) ∧
    (s.AtOp → s.dec.inp.readList s.dec.pos 5 = [0xFF, r, g, b, a] →
      step s = exec (.rgba r g b a) s)

/-- 42_decoder.md R88. -/
def Obligations.RgbLoadsThreeChannelsKeepsAlpha : Prop :=
  ∀ (s : State) (r g b : Byte),
    (∃ t, exec (.rgb r g b) s = .next t ∧ OpEffect s t ⟨r, g, b, s.dec.px.a⟩ 1 4) ∧
    (s.AtOp → s.dec.inp.readList s.dec.pos 4 = [0xFE, r, g, b] → step s = exec (.rgb r g b) s)

/-- 42_decoder.md R89: the pixel is the slot's content before the update of this op. -/
def Obligations.IndexLoadsTheCacheSlot : Prop :=
  ∀ (s : State) (i : Slot),
    (∃ t, exec (.index i) s = .next t ∧ OpEffect s t (s.dec.cache.read i) 1 1) ∧
    (s.AtOp → s.dec.inp.readList s.dec.pos 1 = [BitVec.ofNat 8 i.val] → step s = exec (.index i) s)

/-- 42_decoder.md section 3, DIFF (the places of the three fields are decision D4): each channel on
its own, modulo 256, alpha kept. -/
def Obligations.DiffShiftsChannelsModulo256 : Prop :=
  (∀ (s : State) (dr dg db : Int),
    ∃ t p, exec (.diff dr dg db) s = .next t ∧ OpEffect s t p 1 1 ∧
      (p.r.toNat : Int) = (s.dec.px.r.toNat + dr) % 256 ∧
      (p.g.toNat : Int) = (s.dec.px.g.toNat + dg) % 256 ∧
      (p.b.toNat : Int) = (s.dec.px.b.toNat + db) % 256 ∧ p.a = s.dec.px.a) ∧
  (∀ (s : State) (rr gg bb : Nat), rr < 4 → gg < 4 → bb < 4 → s.AtOp →
    s.dec.inp.readList s.dec.pos 1 = [BitVec.ofNat 8 (0x40 + rr * 16 + gg * 4 + bb)] →
    step s = exec (.diff (rr - 2) (gg - 2) (bb - 2)) s)

/-- 42_decoder.md section 3, LUMA (the nibbles of the second byte are decision D5): green by `dg`,
red by `dg + drg`, blue by `dg + dbg`, each reduced modulo 256, alpha kept. -/
def Obligations.LumaShiftsChannelsModulo256 : Prop :=
  (∀ (s : State) (dg drg dbg : Int),
    ∃ t p, exec (.luma dg drg dbg) s = .next t ∧ OpEffect s t p 1 2 ∧
      (p.r.toNat : Int) = (s.dec.px.r.toNat + dg + drg) % 256 ∧
      (p.g.toNat : Int) = (s.dec.px.g.toNat + dg) % 256 ∧
      (p.b.toNat : Int) = (s.dec.px.b.toNat + dg + dbg) % 256 ∧ p.a = s.dec.px.a) ∧
  (∀ (s : State) (g r b : Nat), g < 64 → r < 16 → b < 16 → s.AtOp →
    s.dec.inp.readList s.dec.pos 2 = [BitVec.ofNat 8 (0x80 + g), BitVec.ofNat 8 (r * 16 + b)] →
    step s = exec (.luma (g - 32) (r - 8) (b - 8)) s)

/-- 42_decoder.md section 3, RUN (that the whole run is one step is decision D21): exactly `n` copies
of `px`, `px` kept. -/
def Obligations.RunAppendsExactlyNCopies : Prop :=
  (∀ (s : State) (n : Nat),
    ∃ t, exec (.run n) s = .next t ∧ OpEffect s t s.dec.px n 1) ∧
  (∀ (s : State) (n : Nat), n ≤ 61 → s.AtOp →
    s.dec.inp.readList s.dec.pos 1 = [BitVec.ofNat 8 (0xC0 + n)] → step s = exec (.run (n + 1)) s)

/-! ### Cache and hash -/

/-- 41_cache.md R73. -/
def Obligations.HashIsWeightedSumModulo64 : Prop :=
  (∀ p : Pixel,
    (pixelHash p).val = (p.r.toNat * 3 + p.g.toNat * 5 + p.b.toNat * 7 + p.a.toNat * 11) % 64 ∧
      p.r.toNat * 3 + p.g.toNat * 5 + p.b.toNat * 7 + p.a.toNat * 11 ≤ 6630) ∧
  pixelHash ⟨0, 0, 0, 255⟩ = 53 ∧ pixelHash ⟨0, 0, 0, 0⟩ = 0 ∧ pixelHash ⟨255, 255, 255, 255⟩ = 38 ∧
    pixelHash ⟨16, 32, 48, 64⟩ = 32

/-- 41_cache.md section 1 (an inference the spec marks as its own): the low 6 bits of the 8-bit
wrap-around products and sum are the same slot. -/
def Obligations.HashAgreesWithEightBitArithmetic : Prop :=
  ∀ p : Pixel,
    (pixelHash p).val = ((p.r * 3 + p.g * 5 + p.b * 7 + p.a * 11 : Byte).extractLsb' 0 6).toNat

/-- 41_cache.md sections 2 and 3 (the eager update is decision D14): an update writes its pixel to
its slot and keeps the 63 others. -/
def Obligations.CacheUpdateWritesOnlyItsSlot : Prop :=
  ∀ (c : Cache) (p : Pixel),
    (c.update p).read (pixelHash p) = p ∧ ∀ h, h ≠ pixelHash p → (c.update p).read h = c.read h

/-! ### Header and pixel word -/

/-- 40_header.md R64, R67: the magic compared whole, the two big-endian numbers, the flags. -/
def Obligations.HeaderParseReadsTheFields : Prop :=
  ∀ m0 m1 m2 m3 w0 w1 w2 w3 h0 h1 h2 h3 c s : Byte,
    let bs := [m0, m1, m2, m3, w0, w1, w2, w3, h0, h1, h2, h3, c, s]
    if m0 = 0x71 ∧ m1 = 0x6F ∧ m2 = 0x69 ∧ m3 = 0x66 then
      ∃ hdr, hdrParse bs = .ok hdr ∧
        hdr.width.toNat = w0.toNat * 2 ^ 24 + w1.toNat * 2 ^ 16 + w2.toNat * 2 ^ 8 + w3.toNat ∧
        hdr.height.toNat = h0.toNat * 2 ^ 24 + h1.toNat * 2 ^ 16 + h2.toNat * 2 ^ 8 + h3.toNat ∧
        hdr.hasAlpha = Config.chanFlag c ∧ (hdr.linearRgb = true ↔ s ≠ 0)
    else hdrParse bs = .error [m0, m1, m2, m3]

/-- 40_header.md section 2 (decision D10): the channels byte 3 means no alpha and 4 means alpha.
Nothing is stated of any other byte. -/
def Obligations.ChannelsByteThreeAndFourAreKnown : Prop :=
  Config.chanFlag 3 = false ∧ Config.chanFlag 4 = true

/-- 40_header.md section 3 (decision D12): the product is exact, below `2^64`. -/
def Obligations.ImageSizeIsTheExactProduct : Prop :=
  (∀ h : Header, h.imageSize = h.width.toNat * h.height.toNat ∧ h.imageSize < 2 ^ 64) ∧
    Header.imageSize ⟨65536, 65536, false, false⟩ = 4294967296

/-- 40_header.md section 4 (decision D11 for the colorspace byte): the 14 bytes of every header. -/
def Obligations.HeaderSerializeLaysOutFourteenBytes : Prop :=
  ∀ h : Header,
    (hdrSerialize h).map BitVec.toNat =
      [0x71, 0x6F, 0x69, 0x66,
        h.width.toNat / 2 ^ 24, h.width.toNat / 2 ^ 16 % 256, h.width.toNat / 2 ^ 8 % 256,
        h.width.toNat % 256,
        h.height.toNat / 2 ^ 24, h.height.toNat / 2 ^ 16 % 256, h.height.toNat / 2 ^ 8 % 256,
        h.height.toNat % 256, 3 + h.hasAlpha.toNat, h.linearRgb.toNat]

/-- 40_header.md section 4, the inverse law (an inference the spec marks as its own). -/
def Obligations.HeaderParseOfSerializeIsIdentity : Prop :=
  ∀ h : Header, hdrParse (hdrSerialize h) = .ok h

/-- 40_header.md section 4: the other direction, for canonical bytes only (an inference the spec
marks as its own). -/
def Obligations.HeaderSerializeOfParseOnCanonicalBytes : Prop :=
  ∀ (bs : List Byte) (h : Header), bs.length = 14 → hdrParse bs = .ok h →
    (bs[12]? = some 3 ∨ bs[12]? = some 4) → (bs[13]? = some 0 ∨ bs[13]? = some 1) →
    hdrSerialize h = bs

/-- 20_memory.md section 2 (the packing is decision D2): the pixel-port word, both ways. -/
def Obligations.PixelWordIsRrggbbaaAndLossless : Prop :=
  (∀ p : Pixel,
    p.word.toNat = p.r.toNat * 2 ^ 24 + p.g.toNat * 2 ^ 16 + p.b.toNat * 2 ^ 8 + p.a.toNat ∧
      Pixel.ofWord p.word = p) ∧
  ∀ w : BitVec 32, (Pixel.ofWord w).word = w

/-! ### Start and end of a decode -/

/-- 42_decoder.md section 1 (decisions D9 and D25): length below 14, magic, length below 22, in this
order; else the loop's first state. `IN` and the encoder are unchanged, and `RUNNING` remains
only where the loop is entered. That result registers which are not valid keep their value follows
60_exceptions.md section 3 and is log entry 14. -/
def Obligations.DecodeStartChecksInOrder : Prop :=
  ∀ s : State, s.AtDecStart →
    ∃ t, step s = .next t ∧ t.enc = s.enc ∧ t.turn = s.turn ∧ t.dec.inp = s.dec.inp ∧
      t.dec.errProduced = s.dec.errProduced ∧ t.dec.errExpected = s.dec.errExpected ∧
      (if s.dec.inp.len < 14 then
        t.dec.status = .faultShortInput ∧ t.dec.stage = .idle ∧ t.dec.hdr = s.dec.hdr ∧
          t.dec.diagFound = s.dec.diagFound ∧ t.dec.out = s.dec.out
      else if s.dec.inp.readList 0 4 ≠ [0x71, 0x6F, 0x69, 0x66] then
        t.dec.status = .faultBadMagic ∧ t.dec.stage = .idle ∧ t.dec.hdr = s.dec.hdr ∧
          t.dec.diagFound = s.dec.inp.readList 0 4 ∧ t.dec.out = s.dec.out
      else
        hdrParse (s.dec.inp.readList 0 14) = .ok t.dec.hdr ∧
          if s.dec.inp.len < 22 then
            t.dec.status = .faultBadEndMarker ∧ t.dec.stage = .idle ∧
              t.dec.diagFound = s.dec.inp.readList 14 (s.dec.inp.len - 14) ∧ t.dec.out = s.dec.out
          else
            t.dec.status = .running ∧ t.dec.stage = .loop ∧ t.dec.diagFound = s.dec.diagFound ∧
              t.dec.pos = 14 ∧ t.dec.px = ⟨0, 0, 0, 255⟩ ∧ t.dec.outcnt = 0 ∧ t.dec.out = [] ∧
              (∀ h, t.dec.cache.read h = ⟨0, 0, 0, 0⟩) ∧ t.dec.endPos + 8 = t.dec.inp.len)

/-- 60_exceptions.md section 2: a bad magic is reported before any pixel exists, with the four bytes
found, and `HDR` is not written. That it is the very first step is log entry 3; that `OUT` is empty
and `outcnt` 0 then, where DEC.START has not set them, is the model's choice, log entry 10. -/
def Obligations.BadMagicIsReportedBeforeAnyPixel : Prop :=
  ∀ (s s1 : State) (bytes : List Byte), s.DecFirst → s.startDecode bytes = .next s1 →
    14 ≤ bytes.length → bytes.take 4 ≠ [0x71, 0x6F, 0x69, 0x66] →
    ∃ t, step s1 = .next t ∧ t.dec.status = .faultBadMagic ∧ t.dec.diagFound = bytes.take 4 ∧
      t.dec.hdr = s1.dec.hdr ∧ t.dec.out = [] ∧ t.dec.outcnt = 0 ∧ t.dec.stage = .idle

/-- 42_decoder.md section 4 (decisions D8 and D25): overrun, marker bytes, pixel count, in this
order; else `DONE_OK`. Nothing but the status, the result registers and the stage is written (of
registers the spec then leaves unspecified this is log entries 11 and 14). -/
def Obligations.DecodeFinishChecksInOrder : Prop :=
  ∀ s : State, s.AtDecFinish →
    ∃ t, step s = .next t ∧ t.enc = s.enc ∧ t.turn = s.turn ∧ t.dec.stage = .idle ∧
      t.dec.inp = s.dec.inp ∧ t.dec.hdr = s.dec.hdr ∧ t.dec.pos = s.dec.pos ∧
      t.dec.px = s.dec.px ∧ t.dec.out = s.dec.out ∧ t.dec.outcnt = s.dec.outcnt ∧
      t.dec.cache = s.dec.cache ∧
      (if s.dec.pos ≠ s.dec.endPos ∨
          s.dec.inp.readList s.dec.endPos 8 ≠ [0, 0, 0, 0, 0, 0, 0, 1] then
        t.dec.status = .faultBadEndMarker ∧
          t.dec.diagFound = s.dec.inp.readList s.dec.endPos 8 ∧
          t.dec.errProduced = s.dec.errProduced ∧ t.dec.errExpected = s.dec.errExpected
      else if s.dec.outcnt ≠ s.dec.hdr.width.toNat * s.dec.hdr.height.toNat then
        t.dec.status = .errSizeMismatch ∧ t.dec.errProduced = s.dec.outcnt ∧
          t.dec.errExpected.toNat = s.dec.hdr.width.toNat * s.dec.hdr.height.toNat ∧
          t.dec.diagFound = s.dec.diagFound
      else
        t.dec.status = .doneOk ∧ t.dec.errProduced = s.dec.errProduced ∧
          t.dec.errExpected = s.dec.errExpected ∧ t.dec.diagFound = s.dec.diagFound)

/-- 60_exceptions.md R127: DEC.FINISH ends in the size mismatch exactly where the end-marker tests
pass and the pixel count is wrong, below or above; it carries both counts and the call is handed
back as an error value without pixels. -/
def Obligations.SizeMismatchCarriesBothCounts : Prop :=
  ∀ s : State, s.AtDecFinish →
    ∃ t, step s = .next t ∧ t.dec.stage = .idle ∧
      (t.dec.status = .errSizeMismatch ↔
        s.dec.pos = s.dec.endPos ∧
          s.dec.inp.readList s.dec.endPos 8 = [0, 0, 0, 0, 0, 0, 0, 1] ∧
          s.dec.outcnt ≠ s.dec.hdr.width.toNat * s.dec.hdr.height.toNat) ∧
      (t.dec.status = .errSizeMismatch →
        t.dec.errProduced = s.dec.outcnt ∧
          t.dec.errExpected.toNat = s.dec.hdr.width.toNat * s.dec.hdr.height.toNat ∧
          t.decodeResult = some (.sizeMismatch s.dec.outcnt t.dec.errExpected))

/-- 60_exceptions.md section 3: a raise stops its engine, writes its status and its result registers
and changes nothing else (the status values are decision D15; registers the spec then leaves
unspecified hold by log entries 11 and 14). -/
def Obligations.RaiseWritesStatusAndResultsOnly : Prop :=
  ∀ (s : State) (c : Cause),
    (s.raise c).turn = s.turn ∧
    (c.engine = .dec →
      (s.raise c).dec.status = c.status ∧ (s.raise c).dec.stage = .idle ∧
      (s.raise c).enc = s.enc ∧ (s.raise c).dec.inp = s.dec.inp ∧ (s.raise c).dec.hdr = s.dec.hdr ∧
      (s.raise c).dec.pos = s.dec.pos ∧ (s.raise c).dec.px = s.dec.px ∧
      (s.raise c).dec.out = s.dec.out ∧ (s.raise c).dec.outcnt = s.dec.outcnt ∧
      (s.raise c).dec.cache = s.dec.cache) ∧
    (c.engine = .enc →
      (s.raise c).dec = s.dec ∧
      (s.raise c).enc = { s.enc with status := .refusedEncPrecondition, stage := .idle }) ∧
    (match c with
      | .sizeMismatch produced expected =>
        (s.raise c).dec.errProduced = produced ∧
          (s.raise c).dec.errExpected = BitVec.ofNat 64 expected ∧
          (s.raise c).dec.diagFound = s.dec.diagFound
      | .badMagic found =>
        (s.raise c).dec.diagFound = found ∧ (s.raise c).dec.errProduced = s.dec.errProduced ∧
          (s.raise c).dec.errExpected = s.dec.errExpected
      | .badEndMarker found =>
        (s.raise c).dec.diagFound = found ∧ (s.raise c).dec.errProduced = s.dec.errProduced ∧
          (s.raise c).dec.errExpected = s.dec.errExpected
      | .shortInput =>
        (s.raise c).dec.diagFound = s.dec.diagFound ∧
          (s.raise c).dec.errProduced = s.dec.errProduced ∧
          (s.raise c).dec.errExpected = s.dec.errExpected
      | .encPrecondition => (s.raise c).dec = s.dec)

/-- 42_decoder.md section 4 (decision D16): the pixels are a result exactly at `DONE_OK`. -/
def Obligations.PixelsAreAResultOnlyAtDoneOk : Prop :=
  ∀ (s : State) (out : List Pixel) (hdr : Header),
    s.decodeResult = some (.image out hdr) ↔
      s.dec.status = .doneOk ∧ out = s.dec.out ∧ hdr = s.dec.hdr

/-! ### The encoder -/

/-- 43_encoder.md section 1: the header is taken, a buffer of the wrong length ends the call with
nothing emitted, else the 14 header bytes are emitted and the first state set. That the refused
call is a next state with its status, idle and with `OUTB` kept, is decision D23 and log entry 13:
the spec makes no claim about hardware there. -/
def Obligations.EncodeStartEmitsTheHeaderOrRefuses : Prop :=
  ∀ s : State, s.AtEncStart →
    ∃ t, step s = .next t ∧ t.dec = s.dec ∧ t.turn = s.turn ∧ t.enc.pix = s.enc.pix ∧
      t.enc.cfg = s.enc.cfg ∧ t.enc.hdr = s.enc.cfg ∧
      (if s.enc.pix.length ≠ s.enc.cfg.width.toNat * s.enc.cfg.height.toNat then
        t.enc.status = .refusedEncPrecondition ∧ t.enc.stage = .idle ∧ t.enc.outb = s.enc.outb
      else
        t.enc.status = .running ∧ t.enc.stage = .loop ∧
          t.enc.outb.bytes = hdrSerialize s.enc.cfg ∧ t.enc.prev = ⟨0, 0, 0, 255⟩ ∧
          t.enc.run = 0 ∧ t.enc.ipx = 0 ∧ ∀ h, t.enc.cache.read h = ⟨0, 0, 0, 0⟩)

/-- 43_encoder.md section 3 (that one step is one pixel is decision D21, the cache update at a flush at
the cap decision D29): a pixel equal to `prev` extends the run and emits nothing, except that the
62nd is flushed in the same step as byte FD. -/
def Obligations.EqualPixelExtendsTheRun : Prop :=
  ∀ (s : State) (cur : Pixel), s.enc.outb.wf = true → s.enc.run.toNat ≤ 61 → s.AtPixel cur →
    cur = s.enc.prev →
    ∃ t, step s = .next t ∧ t.dec = s.dec ∧ t.turn = s.turn ∧ t.enc.ipx = s.enc.ipx + 1 ∧
      t.enc.prev = s.enc.prev ∧ t.enc.pix = s.enc.pix ∧ t.enc.cfg = s.enc.cfg ∧
      t.enc.hdr = s.enc.hdr ∧ t.enc.status = s.enc.status ∧ t.enc.stage = s.enc.stage ∧
      (if s.enc.run.toNat = 61 then
        t.enc.run = 0 ∧ t.enc.outb.bytes = s.enc.outb.bytes ++ [0xFD] ∧
          t.enc.cache.read (pixelHash cur) = cur ∧
          ∀ h, h ≠ pixelHash cur → t.enc.cache.read h = s.enc.cache.read h
      else
        t.enc.run.toNat = s.enc.run.toNat + 1 ∧ t.enc.outb = s.enc.outb ∧
          t.enc.cache = s.enc.cache)

/-- 43_encoder.md section 4: choice 2, INDEX. That the slot is read after the flush of a pending run
and before the update for the pixel is decision D30 (log entry 15). -/
def Obligations.CachedPixelIsEmittedAsIndex : Prop :=
  ∀ (s : State) (cur : Pixel), s.enc.outb.wf = true → s.AtPixel cur → cur ≠ s.enc.prev →
    s.enc.testCache.read (pixelHash cur) = cur →
    ∃ t, step s = .next t ∧ PixelEffect s t cur [BitVec.ofNat 8 (pixelHash cur).val]

/-- 43_encoder.md section 4, DIFF (the places of the fields are decision D4, the deltas decision D6,
the slot read after the flush decision D30): choice 3. -/
def Obligations.SmallDeltaIsEmittedAsDiff : Prop :=
  ∀ (s : State) (cur : Pixel), s.enc.outb.wf = true → s.AtPixel cur → cur ≠ s.enc.prev →
    s.enc.testCache.read (pixelHash cur) ≠ cur → cur.a = s.enc.prev.a →
    (delta cur s.enc.prev).fitDiff →
    ∃ (t : State) (b : Byte), step s = .next t ∧ PixelEffect s t cur [b] ∧
      (b.toNat : Int) = 0x40 + ((delta cur s.enc.prev).dr + 2) * 16 +
        ((delta cur s.enc.prev).dg + 2) * 4 + ((delta cur s.enc.prev).db + 2)

/-- 43_encoder.md section 4, LUMA (the nibbles are decision D5, the deltas decision D6, the slot read
after the flush decision D30): choice 4. -/
def Obligations.MediumDeltaIsEmittedAsLuma : Prop :=
  ∀ (s : State) (cur : Pixel), s.enc.outb.wf = true → s.AtPixel cur → cur ≠ s.enc.prev →
    s.enc.testCache.read (pixelHash cur) ≠ cur → cur.a = s.enc.prev.a →
    ¬ (delta cur s.enc.prev).fitDiff → (delta cur s.enc.prev).fitLuma →
    ∃ (t : State) (b0 b1 : Byte), step s = .next t ∧ PixelEffect s t cur [b0, b1] ∧
      (b0.toNat : Int) = 0x80 + ((delta cur s.enc.prev).dg + 32) ∧
      (b1.toNat : Int) = ((delta cur s.enc.prev).dr - (delta cur s.enc.prev).dg + 8) * 16 +
        ((delta cur s.enc.prev).db - (delta cur s.enc.prev).dg + 8)

/-- 43_encoder.md section 4: choice 5, RGB. That the deltas which fit neither DIFF nor LUMA are the
wrapped ones is decision D6, that the slot is read after the flush decision D30 (log entry 15). -/
def Obligations.LargeDeltaSameAlphaIsEmittedAsRgb : Prop :=
  ∀ (s : State) (cur : Pixel), s.enc.outb.wf = true → s.AtPixel cur → cur ≠ s.enc.prev →
    s.enc.testCache.read (pixelHash cur) ≠ cur → cur.a = s.enc.prev.a →
    ¬ (delta cur s.enc.prev).fitDiff → ¬ (delta cur s.enc.prev).fitLuma →
    ∃ t, step s = .next t ∧ PixelEffect s t cur [0xFE, cur.r, cur.g, cur.b]

/-- 43_encoder.md section 4: choice 6, RGBA, whatever the other channels do. That the slot is read
after the flush of a pending run, and that the other slots are those after it, is decision D30
(log entry 15). -/
def Obligations.ChangedAlphaIsEmittedAsRgba : Prop :=
  ∀ (s : State) (cur : Pixel), s.enc.outb.wf = true → s.AtPixel cur → cur ≠ s.enc.prev →
    s.enc.testCache.read (pixelHash cur) ≠ cur → cur.a ≠ s.enc.prev.a →
    ∃ t, step s = .next t ∧ PixelEffect s t cur [0xFF, cur.r, cur.g, cur.b, cur.a]

/-- 43_encoder.md section 5 (the flush at the end of the input is decision D22): the pending run's
byte, then the end marker, then `DONE_OK`. -/
def Obligations.EncodeFinishFlushesThenMarks : Prop :=
  ∀ s : State, s.enc.outb.wf = true → s.AtEncFinish →
    ∃ t, step s = .next t ∧ t.dec = s.dec ∧ t.turn = s.turn ∧ t.enc.status = .doneOk ∧
      t.enc.stage = .idle ∧ t.enc.run = 0 ∧
      t.enc.outb.bytes = s.enc.outb.bytes ++ s.enc.pendingBytes ++ [0, 0, 0, 0, 0, 0, 0, 1] ∧
      (∀ h, t.enc.cache.read h = s.enc.testCache.read h) ∧ t.enc.prev = s.enc.prev ∧
      t.enc.ipx = s.enc.ipx ∧ t.enc.pix = s.enc.pix ∧ t.enc.cfg = s.enc.cfg ∧
      t.enc.hdr = s.enc.hdr ∧ t.encodeResult = some t.enc.outb.bytes

/-- 43_encoder.md section 4, `Delta` (decision D6): a delta is a signed byte and the decoder's
wrap-around addition undoes it. -/
def Obligations.WrappedDeltaIsUndoneByWrappedAdd : Prop :=
  ∀ cur prev : Byte,
    -128 ≤ deltaChannel cur prev ∧ deltaChannel cur prev ≤ 127 ∧
      (deltaChannel cur prev - ((cur.toNat : Int) - prev.toNat)) % 256 = 0 ∧
      addWrap prev (deltaChannel cur prev) = cur

/-! ### The whole machine -/

/-- The values 10_state.md section 9 gives for reset (that hardware reset is the start of a call is
decision D17, the zero cache decision D3). The registers the spec leaves unspecified are not here. -/
def Obligations.ResetHasTheSpecifiedValues : Prop :=
  State.reset.dec.px = ⟨0, 0, 0, 255⟩ ∧ State.reset.dec.pos = 14 ∧ State.reset.dec.outcnt = 0 ∧
    State.reset.dec.out = [] ∧ (∀ h, State.reset.dec.cache.read h = ⟨0, 0, 0, 0⟩) ∧
    State.reset.dec.status = .running ∧
    State.reset.enc.prev = ⟨0, 0, 0, 255⟩ ∧ State.reset.enc.run = 0 ∧ State.reset.enc.ipx = 0 ∧
    State.reset.enc.outb.bytes = [] ∧ (∀ h, State.reset.enc.cache.read h = ⟨0, 0, 0, 0⟩) ∧
    State.reset.enc.status = .running

/-- The invariant holds at reset. -/
def Obligations.InvariantHoldsAtReset : Prop := State.reset.Inv

/-- Every step keeps the invariant: canonical byte spaces, `outcnt` the length of `OUT`, the cache of
each engine the most recent emitted pixel of every hash, `pos` at most `END_POS + 4`, `run` at
most 61, the bounds on the bytes emitted. -/
def Obligations.StepKeepsTheInvariant : Prop :=
  ∀ s t : State, s.Inv → step s = .next t → t.Inv

/-- Both host moves keep the invariant. -/
def Obligations.HostMovesKeepTheInvariant : Prop :=
  (∀ (s t : State) (bytes : List Byte), s.Inv → s.startDecode bytes = .next t → t.Inv) ∧
  ∀ (s t : State) (pix : List Pixel) (cfg : Header), s.Inv →
    s.startEncode pix cfg = .next t → t.Inv

/-- Byte spaces are canonical: two that read alike everywhere are equal data (the form is the
model's, log entry 7). -/
def Obligations.SpacesThatReadAlikeAreEqual : Prop :=
  ∀ m m' : Memory, m.wf = true → m'.wf = true → (∀ a, m.read? a = m'.read? a) → m = m'

/-- 20_memory.md sections 1 and 6: no step writes a call argument, `IN`, `PIX` or the header
configuration. -/
def Obligations.StepNeverWritesTheCallArguments : Prop :=
  ∀ s t : State, step s = .next t →
    t.dec.inp = s.dec.inp ∧ t.enc.pix = s.enc.pix ∧ t.enc.cfg = s.enc.cfg

/-- 20_memory.md section 1: while a call is in its loop its output is append only. -/
def Obligations.OutputsAreAppendOnly : Prop :=
  ∀ s t : State, s.enc.outb.wf = true → step s = .next t →
    (s.dec.stage = .loop → s.dec.out <+: t.dec.out) ∧
      (s.enc.stage = .loop → s.enc.outb.bytes <+: t.enc.outb.bytes)

/-- 10_state.md section 3 and 42_decoder.md section 2: an op moves `pos` forward by its own length,
1, 2, 4 or 5, and by nothing else. -/
def Obligations.OpAdvancesPosByItsLength : Prop :=
  ∀ (s t : State) (b : Byte), s.AtOp → s.dec.inp.read? s.dec.pos = some b → step s = .next t →
    t.dec.pos = s.dec.pos + (dispatch b).length ∧ s.dec.pos < t.dec.pos ∧
      t.dec.pos ≤ s.dec.pos + 5

/-- 60_exceptions.md section 3 (decision D31): the status of an engine whose call is over stays until
the host starts the next call; that its other registers hold too is the model's choice (log
entry 11, the spec leaves them unspecified between calls). -/
def Obligations.EndedCallStaysUntilTheHostStartsTheNext : Prop :=
  ∀ s t : State, step s = .next t →
    (s.DecIdle → t.dec = s.dec) ∧ (s.EncIdle → t.enc = s.enc)

/-- 60_exceptions.md section 4 and 10_state.md section 1: neither engine's move reads or writes the
other's state, and the two moves commute. -/
def Obligations.EnginesDoNotInterfere : Prop :=
  ∀ s t : State, decMove s = .next t →
    t.enc = s.enc ∧ t.turn = s.turn ∧ (encMove s).dec = s.dec ∧ (encMove s).turn = s.turn ∧
      decMove (encMove s) = .next (encMove t)

/-- 70_reset_and_hazards.md section 1 (decision D17): nothing of an earlier call survives into the
next one. The registers the spec leaves unspecified at the start of a call hold the model's own reset
values there (log entries 1 and 10). -/
def Obligations.NothingSurvivesIntoTheNextCall : Prop :=
  (∀ (s s' t t' : State) (bytes : List Byte), s.startDecode bytes = .next t →
    s'.startDecode bytes = .next t' → t.dec = t'.dec) ∧
  ∀ (s s' t t' : State) (pix : List Pixel) (cfg : Header), s.startEncode pix cfg = .next t →
    s'.startEncode pix cfg = .next t' → t.enc = t'.enc

/-- 60_exceptions.md section 4 (decisions D1 and D18): an idle engine takes a call, a busy engine
takes none, and a call on one engine leaves the other alone. -/
def Obligations.HostStartsACallOnlyOnAnIdleEngine : Prop :=
  (∀ (s : State) (bytes : List Byte),
    (s.DecIdle → ∃ t, s.startDecode bytes = .next t ∧ t.dec.stage = .start ∧
      t.dec.inp.bytes = bytes ∧ t.enc = s.enc) ∧
    (¬ s.DecIdle → s.startDecode bytes = .refused (.engineBusy .dec))) ∧
  ∀ (s : State) (pix : List Pixel) (cfg : Header),
    (s.EncIdle → ∃ t, s.startEncode pix cfg = .next t ∧ t.enc.stage = .start ∧ t.enc.pix = pix ∧
      t.enc.cfg = cfg ∧ t.dec = s.dec) ∧
    (¬ s.EncIdle → s.startEncode pix cfg = .refused (.engineBusy .enc))

/-- 42_decoder.md section 4, determinism and totality (what one step is, and so the bound, rests on
decision D21 and log entry 3): every decode, of any bytes, ends within as many steps as `IN` has
bytes and two more, in exactly one of the five ways, and for one fixed `ChanFlag` the decoder it ends
in is a function of the bytes: the block's state before the call, and the other engine, do not
matter. For `HDR.has_alpha` of a channels byte other than 3 or 4, which the rule excepts, this rests
on log entry 6 (decision D10); for `px`, `pos`, `CACHE` and the other registers after the end on log
entry 11; for those that nothing has written, or that the outcome does not name, on log entries 1,
10 and 14. -/
def Obligations.EveryDecodeEnds : Prop :=
  ∀ bytes : List Byte, ∃ (n : Nat) (d : DecState),
    n ≤ bytes.length + 2 ∧ d.stage = .idle ∧ d.status.endsDecode ∧
      ∀ s s1 : State, s.DecFirst → s.startDecode bytes = .next s1 →
        ∃ t : State, Steps n s1 t ∧ t.dec = d

/-- 43_encoder.md section 6, determinism, totality and size (what one step is rests on decision D21
and log entry 3): a call whose buffer length matches ends in `DONE_OK` after one step for each
pixel and two more, with between one op byte for 62 pixels and five for one, and how it ends is a
function of the pixels and the configuration alone (of registers the spec leaves unspecified
between calls this rests on log entry 11). -/
def Obligations.EveryEncodeEndsWithinItsBounds : Prop :=
  ∀ (pix : List Pixel) (cfg : Header), pix.length = cfg.width.toNat * cfg.height.toNat →
    ∃ e : EncState, e.stage = .idle ∧ e.status = .doneOk ∧
      22 + (pix.length + 61) / 62 ≤ e.outb.bytes.length ∧
      e.outb.bytes.length ≤ 22 + 5 * pix.length ∧
      ∀ s s1 : State, s.EncFirst → s.startEncode pix cfg = .next s1 →
        ∃ t : State, Steps (pix.length + 2) s1 t ∧ t.enc = e

/-- 41_cache.md section 5, lock-step (an inference the spec marks as its own): the bytes an encoder
step appends are the bytes of well-formed ops, and a decoder that holds the encoder's cache and
previous pixel and executes exactly those ops ends with the encoder's new cache and previous
pixel, having appended exactly the pixels the encoder has newly written out. -/
def Obligations.DecoderStaysInLockStepWithEncoder : Prop :=
  ∀ (s t d : State) (cur : Pixel), s.enc.Inv → s.AtPixel cur → step s = .next t →
    d.dec.cache = s.enc.cache → d.dec.px = s.enc.prev →
    ∃ (ops : List Instr) (u : State) (ps : List Pixel),
      (∀ i ∈ ops, i.wf = true) ∧
      t.enc.outb.bytes = s.enc.outb.bytes ++ ops.flatMap encode ∧
      execAll ops d = .next u ∧ u.dec.cache = t.enc.cache ∧ u.dec.px = t.enc.prev ∧
      u.dec.out = d.dec.out ++ ps ∧ t.enc.flushed = s.enc.flushed ++ ps

/-- 43_encoder.md R116, the round trip: encode any pixels whose number is width times height, decode
the bytes handed back, and the pixels and the header come back. -/
def Obligations.DecodeOfEncodedImageGivesItBack : Prop :=
  ∀ (s s1 : State) (pix : List Pixel) (cfg : Header), s.DecIdle →
    pix.length = cfg.width.toNat * cfg.height.toNat → s.startEncode pix cfg = .next s1 →
    ∃ (n : Nat) (t : State) (bytes : List Byte),
      Steps n s1 t ∧ t.EncIdle ∧ t.encodeResult = some bytes ∧
      ∃ (t1 : State) (m : Nat) (u : State),
        t.startDecode bytes = .next t1 ∧ Steps m t1 u ∧ u.DecIdle ∧
          u.decodeResult = some (.image pix cfg)
end

