-- ==== Sys2Proof/Laws/State.lean ====
section
/-! SUPPORT. One lemma per field per update, so that no later proof unfolds a record update. -/

namespace Sys2Proof.Machine

/-! ### The whole state -/

section
variable (s : State) (f : DecState → DecState) (g : EncState → EncState)

@[simp] theorem State.onDec_dec : (s.onDec f).dec = f s.dec := rfl
@[simp] theorem State.onDec_enc : (s.onDec f).enc = s.enc := rfl
@[simp] theorem State.onDec_turn : (s.onDec f).turn = s.turn := rfl
@[simp] theorem State.onEnc_dec : (s.onEnc g).dec = s.dec := rfl
@[simp] theorem State.onEnc_enc : (s.onEnc g).enc = g s.enc := rfl
@[simp] theorem State.onEnc_turn : (s.onEnc g).turn = s.turn := rfl

end

/-! ### setPx -/

section
variable (d : DecState) (p : Pixel)

@[simp] theorem DecState.setPx_inp : (d.setPx p).inp = d.inp := rfl
@[simp] theorem DecState.setPx_hdr : (d.setPx p).hdr = d.hdr := rfl
@[simp] theorem DecState.setPx_pos : (d.setPx p).pos = d.pos := rfl
@[simp] theorem DecState.setPx_px : (d.setPx p).px = p := rfl
@[simp] theorem DecState.setPx_out : (d.setPx p).out = d.out := rfl
@[simp] theorem DecState.setPx_outcnt : (d.setPx p).outcnt = d.outcnt := rfl
@[simp] theorem DecState.setPx_cache : (d.setPx p).cache = d.cache := rfl
@[simp] theorem DecState.setPx_status : (d.setPx p).status = d.status := rfl
@[simp] theorem DecState.setPx_errProduced : (d.setPx p).errProduced = d.errProduced := rfl
@[simp] theorem DecState.setPx_errExpected : (d.setPx p).errExpected = d.errExpected := rfl
@[simp] theorem DecState.setPx_diagFound : (d.setPx p).diagFound = d.diagFound := rfl
@[simp] theorem DecState.setPx_stage : (d.setPx p).stage = d.stage := rfl

end

/-! ### outPush -/

section
variable (d : DecState) (p : Pixel)

@[simp] theorem DecState.outPush_inp : (d.outPush p).inp = d.inp := rfl
@[simp] theorem DecState.outPush_hdr : (d.outPush p).hdr = d.hdr := rfl
@[simp] theorem DecState.outPush_pos : (d.outPush p).pos = d.pos := rfl
@[simp] theorem DecState.outPush_px : (d.outPush p).px = d.px := rfl
@[simp] theorem DecState.outPush_out : (d.outPush p).out = d.out ++ [p] := rfl
@[simp] theorem DecState.outPush_outcnt : (d.outPush p).outcnt = d.outcnt + 1 := rfl
@[simp] theorem DecState.outPush_cache : (d.outPush p).cache = d.cache := rfl
@[simp] theorem DecState.outPush_status : (d.outPush p).status = d.status := rfl
@[simp] theorem DecState.outPush_errProduced : (d.outPush p).errProduced = d.errProduced := rfl
@[simp] theorem DecState.outPush_errExpected : (d.outPush p).errExpected = d.errExpected := rfl
@[simp] theorem DecState.outPush_diagFound : (d.outPush p).diagFound = d.diagFound := rfl
@[simp] theorem DecState.outPush_stage : (d.outPush p).stage = d.stage := rfl

end

/-! ### tail -/

section
variable (d : DecState) (n : Nat)

@[simp] theorem DecState.tail_inp : (d.tail n).inp = d.inp := rfl
@[simp] theorem DecState.tail_hdr : (d.tail n).hdr = d.hdr := rfl
@[simp] theorem DecState.tail_pos : (d.tail n).pos = d.pos + n := rfl
@[simp] theorem DecState.tail_px : (d.tail n).px = d.px := rfl
@[simp] theorem DecState.tail_out : (d.tail n).out = d.out := rfl
@[simp] theorem DecState.tail_outcnt : (d.tail n).outcnt = d.outcnt := rfl
@[simp] theorem DecState.tail_cache : (d.tail n).cache = d.cache.update d.px := rfl
@[simp] theorem DecState.tail_status : (d.tail n).status = d.status := rfl
@[simp] theorem DecState.tail_errProduced : (d.tail n).errProduced = d.errProduced := rfl
@[simp] theorem DecState.tail_errExpected : (d.tail n).errExpected = d.errExpected := rfl
@[simp] theorem DecState.tail_diagFound : (d.tail n).diagFound = d.diagFound := rfl
@[simp] theorem DecState.tail_stage : (d.tail n).stage = d.stage := rfl

end

/-! ### produce -/

section
variable (d : DecState) (p : Pixel) (n : Nat)

@[simp] theorem DecState.produce_inp : (d.produce p n).inp = d.inp := rfl
@[simp] theorem DecState.produce_hdr : (d.produce p n).hdr = d.hdr := rfl
@[simp] theorem DecState.produce_pos : (d.produce p n).pos = d.pos + n := rfl
@[simp] theorem DecState.produce_px : (d.produce p n).px = p := rfl
@[simp] theorem DecState.produce_out : (d.produce p n).out = d.out ++ [p] := rfl
@[simp] theorem DecState.produce_outcnt : (d.produce p n).outcnt = d.outcnt + 1 := rfl
@[simp] theorem DecState.produce_cache : (d.produce p n).cache = d.cache.update p := rfl
@[simp] theorem DecState.produce_status : (d.produce p n).status = d.status := rfl
@[simp] theorem DecState.produce_errProduced : (d.produce p n).errProduced = d.errProduced := rfl
@[simp] theorem DecState.produce_errExpected : (d.produce p n).errExpected = d.errExpected := rfl
@[simp] theorem DecState.produce_diagFound : (d.produce p n).diagFound = d.diagFound := rfl
@[simp] theorem DecState.produce_stage : (d.produce p n).stage = d.stage := rfl

end

/-! ### outPushTimes -/

/-- What `n` appends do, as one record update: the lemma later proofs cite. -/
theorem DecState.outPushTimes_eq (p : Pixel) (n : Nat) (d : DecState) :
    DecState.outPushTimes p n d =
      { d with out := d.out ++ List.replicate n p, outcnt := d.outcnt + n } := by
  induction n generalizing d with
  | zero => simp [DecState.outPushTimes]
  | succ n ih =>
    simp [DecState.outPushTimes, ih, List.replicate_succ]
    omega

section
variable (d : DecState) (p : Pixel) (n : Nat)

@[simp] theorem DecState.outPushTimes_inp :
    (DecState.outPushTimes p n d).inp = d.inp := by
  rw [DecState.outPushTimes_eq]
@[simp] theorem DecState.outPushTimes_hdr :
    (DecState.outPushTimes p n d).hdr = d.hdr := by
  rw [DecState.outPushTimes_eq]
@[simp] theorem DecState.outPushTimes_pos :
    (DecState.outPushTimes p n d).pos = d.pos := by
  rw [DecState.outPushTimes_eq]
@[simp] theorem DecState.outPushTimes_px :
    (DecState.outPushTimes p n d).px = d.px := by
  rw [DecState.outPushTimes_eq]
@[simp] theorem DecState.outPushTimes_out :
    (DecState.outPushTimes p n d).out = d.out ++ List.replicate n p := by
  rw [DecState.outPushTimes_eq]
@[simp] theorem DecState.outPushTimes_outcnt :
    (DecState.outPushTimes p n d).outcnt = d.outcnt + n := by
  rw [DecState.outPushTimes_eq]
@[simp] theorem DecState.outPushTimes_cache :
    (DecState.outPushTimes p n d).cache = d.cache := by
  rw [DecState.outPushTimes_eq]
@[simp] theorem DecState.outPushTimes_status :
    (DecState.outPushTimes p n d).status = d.status := by
  rw [DecState.outPushTimes_eq]
@[simp] theorem DecState.outPushTimes_errProduced :
    (DecState.outPushTimes p n d).errProduced = d.errProduced := by
  rw [DecState.outPushTimes_eq]
@[simp] theorem DecState.outPushTimes_errExpected :
    (DecState.outPushTimes p n d).errExpected = d.errExpected := by
  rw [DecState.outPushTimes_eq]
@[simp] theorem DecState.outPushTimes_diagFound :
    (DecState.outPushTimes p n d).diagFound = d.diagFound := by
  rw [DecState.outPushTimes_eq]
@[simp] theorem DecState.outPushTimes_stage :
    (DecState.outPushTimes p n d).stage = d.stage := by
  rw [DecState.outPushTimes_eq]

end

/-! ### emitOp -/

section
variable (e : EncState) (i : Instr)

@[simp] theorem EncState.emitOp_pix : (e.emitOp i).pix = e.pix := rfl
@[simp] theorem EncState.emitOp_cfg : (e.emitOp i).cfg = e.cfg := rfl
@[simp] theorem EncState.emitOp_hdr : (e.emitOp i).hdr = e.hdr := rfl
@[simp] theorem EncState.emitOp_ipx : (e.emitOp i).ipx = e.ipx := rfl
@[simp] theorem EncState.emitOp_prev : (e.emitOp i).prev = e.prev := rfl
@[simp] theorem EncState.emitOp_run : (e.emitOp i).run = e.run := rfl
@[simp] theorem EncState.emitOp_outb : (e.emitOp i).outb = e.outb.emit (encode i) := rfl
@[simp] theorem EncState.emitOp_cache : (e.emitOp i).cache = e.cache := rfl
@[simp] theorem EncState.emitOp_status : (e.emitOp i).status = e.status := rfl
@[simp] theorem EncState.emitOp_stage : (e.emitOp i).stage = e.stage := rfl

end

/-! ### flushRun -/

section
variable (e : EncState) 

@[simp] theorem EncState.flushRun_pix : (e.flushRun).pix = e.pix := rfl
@[simp] theorem EncState.flushRun_cfg : (e.flushRun).cfg = e.cfg := rfl
@[simp] theorem EncState.flushRun_hdr : (e.flushRun).hdr = e.hdr := rfl
@[simp] theorem EncState.flushRun_ipx : (e.flushRun).ipx = e.ipx := rfl
@[simp] theorem EncState.flushRun_prev : (e.flushRun).prev = e.prev := rfl
@[simp] theorem EncState.flushRun_run : (e.flushRun).run = 0 := rfl
@[simp] theorem EncState.flushRun_outb : (e.flushRun).outb = e.outb.emit (encode (.run e.run.toNat)) := rfl
@[simp] theorem EncState.flushRun_cache : (e.flushRun).cache = e.cache.update e.prev := rfl
@[simp] theorem EncState.flushRun_status : (e.flushRun).status = e.status := rfl
@[simp] theorem EncState.flushRun_stage : (e.flushRun).stage = e.stage := rfl

end

end Sys2Proof.Machine
end

