-- ==== Sys2Proof/Laws/Memory.lean ====
section
/-! SUPPORT. The laws of byte spaces: a read after a write, the frame of a write, the canonical form
is kept by every operation, and the byte sequence a space stands for. -/

namespace Sys2Proof.Machine

/-! ### The canonical form -/

theorem Memory.cellsWf_mono {lo lo' hi hi' : Nat} {l : List Host.Cell} (h : cellsWf lo hi l = true)
    (hlo : lo' ≤ lo) (hhi : hi ≤ hi') : cellsWf lo' hi' l = true := by
  induction l generalizing lo lo' with
  | nil => rfl
  | cons c rest ih =>
    simp only [cellsWf, Bool.and_eq_true, decide_eq_true_eq] at h ⊢
    exact ⟨⟨⟨by omega, by omega⟩, h.1.2⟩, ih h.2 (by omega)⟩

/-- No cell lies below the bound. -/
theorem Memory.lookup_below {lo hi a : Nat} {l : List Host.Cell} (h : cellsWf lo hi l = true)
    (ha : a < lo) : lookup a l = unlistedByte := by
  induction l generalizing lo with
  | nil => rfl
  | cons c rest ih =>
    simp only [cellsWf, Bool.and_eq_true, decide_eq_true_eq] at h
    have hc : c.1 ≠ a := by omega
    simpa [lookup, hc] using ih h.2 (by omega)

theorem Memory.insertCell_wf {lo hi a : Nat} {b : Byte} {l : List Host.Cell}
    (h : cellsWf lo hi l = true) (hlo : lo ≤ a) (hhi : a < hi) :
    cellsWf lo hi (insertCell a b l) = true := by
  induction l generalizing lo with
  | nil => by_cases hb : b = unlistedByte <;> simp [insertCell, cellsWf, hb, hlo, hhi]
  | cons c rest ih =>
    simp only [cellsWf, Bool.and_eq_true, decide_eq_true_eq] at h
    obtain ⟨⟨⟨h1, h2⟩, h3⟩, h4⟩ := h
    rcases Nat.lt_trichotomy c.1 a with hlt | heq | hgt
    · simp [insertCell, hlt, cellsWf, h1, h2, h3, ih h4 (by omega)]
    · subst heq
      by_cases hb : b = unlistedByte
      · simpa [insertCell, hb] using cellsWf_mono h4 (by omega) (Nat.le_refl hi)
      · simp [insertCell, cellsWf, hb, h1, h2, h4]
    · have hr : ¬ c.1 < a := by omega
      have hn : c.1 ≠ a := by omega
      have hle : a + 1 ≤ c.1 := hgt
      by_cases hb : b = unlistedByte
      · simp [insertCell, hr, hn, hb, cellsWf, h1, h2, h3, h4]
      · simp [insertCell, hr, hn, hb, cellsWf, h2, h3, h4, hlo, hhi, hle]

theorem Memory.lookup_insertCell {lo hi a : Nat} {b : Byte} {l : List Host.Cell}
    (h : cellsWf lo hi l = true) (k : Nat) :
    lookup k (insertCell a b l) = if k = a then b else lookup k l := by
  induction l generalizing lo with
  | nil =>
    by_cases hb : b = unlistedByte
    · by_cases hk : k = a <;> simp [insertCell, lookup, hb]
    · simp [insertCell, lookup, hb, eq_comm (a := a) (b := k)]
  | cons c rest ih =>
    simp only [cellsWf, Bool.and_eq_true, decide_eq_true_eq] at h
    obtain ⟨⟨⟨-, -⟩, -⟩, h4⟩ := h
    rcases Nat.lt_trichotomy c.1 a with hlt | heq | hgt
    · have := ih h4
      by_cases hk : c.1 = k
      · subst hk
        have hka : c.1 ≠ a := by omega
        simp [insertCell, hlt, lookup, hka]
      · simp [insertCell, hlt, lookup, hk, this]
    · subst heq
      by_cases hk : k = c.1
      · subst hk
        by_cases hb : b = unlistedByte
        · simpa [insertCell, hb] using lookup_below h4 (by omega)
        · simp [insertCell, hb, lookup]
      · have hk' : c.1 ≠ k := fun e => hk e.symm
        by_cases hb : b = unlistedByte <;> simp [insertCell, hb, lookup, hk, hk']
    · have hr : ¬ c.1 < a := by omega
      have hn : c.1 ≠ a := by omega
      by_cases hk : k = a
      · subst hk
        by_cases hb : b = unlistedByte
        · simpa [insertCell, hr, hn, hb, lookup] using lookup_below h4 (by omega)
        · simp [insertCell, hr, hb, lookup]
      · have hk' : a ≠ k := fun e => hk e.symm
        by_cases hb : b = unlistedByte <;> simp [insertCell, hr, hn, hb, lookup, hk, hk']

@[simp] theorem Memory.empty_wf : Memory.empty.wf = true := rfl
@[simp] theorem Memory.empty_len : Memory.empty.len = 0 := rfl

theorem Memory.write_wf {m : Memory} (h : m.wf = true) (a : Nat) (b : Byte) :
    (m.write a b).wf = true :=
  insertCell_wf (cellsWf_mono h (Nat.le_refl 0) (Nat.le_max_left _ _)) (Nat.zero_le a)
    (Nat.lt_of_lt_of_le (Nat.lt_succ_self a) (Nat.le_max_right _ _))

@[simp] theorem Memory.write_len (m : Memory) (a : Nat) (b : Byte) :
    (m.write a b).len = max m.len (a + 1) := rfl

/-- A read after a write: the byte written at its address, every other address as before; a write
that lengthens the space leaves unlisted bytes between. -/
theorem Memory.read?_write {m : Memory} (h : m.wf = true) (a : Nat) (b : Byte) (k : Nat) :
    (m.write a b).read? k =
      if k = a then some b
      else if k < m.len then m.read? k
      else if k < a then some unlistedByte else none := by
  have hl := lookup_insertCell (a := a) (b := b) h k
  by_cases hk : k = a
  · subst hk; simp [read?, write, hl]
  · by_cases hm : k < m.len
    · have : k < max m.len (a + 1) := by omega
      simp [read?, write, hl, hk, hm]
    · by_cases ha : k < a
      · have h1 : k < max m.len (a + 1) := by omega
        have h2 : lookup k m.cells = unlistedByte := by
          have : ∀ {lo : Nat} {l : List Host.Cell}, cellsWf lo m.len l = true →
              lookup k l = unlistedByte := by
            intro lo l
            induction l generalizing lo with
            | nil => intro _; rfl
            | cons c rest ih =>
              intro hc
              simp only [cellsWf, Bool.and_eq_true, decide_eq_true_eq] at hc
              have hne : c.1 ≠ k := by omega
              simpa [lookup, hne] using ih hc.2
          exact this h
        have h3 : k < a + 1 := by omega
        simp [read?, write, hl, hk, hm, ha, h2, h3]
      · have h3 : ¬ k < a + 1 := by omega
        simp [read?, write, hk, hm, ha, h3]

theorem Memory.writeList_wf {m : Memory} (h : m.wf = true) (a : Nat) (bs : List Byte) :
    (m.writeList a bs).wf = true := by
  induction bs generalizing m a with
  | nil => exact h
  | cons b bs ih => exact ih (write_wf h a b) (a + 1)

/-- Writing bytes at the end, or across it, makes the space exactly that long. -/
theorem Memory.writeList_len {m : Memory} {a : Nat} (ha : a ≤ m.len) (bs : List Byte) :
    (m.writeList a bs).len = max m.len (a + bs.length) := by
  induction bs generalizing m a with
  | nil => simp [writeList]; omega
  | cons b bs ih =>
    rw [writeList, ih (by simp)]
    simp
    omega

/-! ### Emitting -/

theorem Memory.emit_wf {m : Memory} (h : m.wf = true) (bs : List Byte) : (m.emit bs).wf = true :=
  writeList_wf h _ _

@[simp] theorem Memory.emit_len (m : Memory) (bs : List Byte) :
    (m.emit bs).len = m.len + bs.length := by
  rw [emit, writeList_len (Nat.le_refl _)]; omega

@[simp] theorem Memory.emit_nil (m : Memory) : m.emit [] = m := rfl

theorem Memory.emit_cons (m : Memory) (b : Byte) (bs : List Byte) :
    m.emit (b :: bs) = (m.emit [b]).emit bs := by
  simp [emit, writeList]

theorem Memory.emit_append (m : Memory) (bs cs : List Byte) :
    m.emit (bs ++ cs) = (m.emit bs).emit cs := by
  induction bs generalizing m with
  | nil => rfl
  | cons b bs ih => rw [List.cons_append, emit_cons, ih, ← emit_cons]

/-- Every byte already in the space is kept, the new ones follow. -/
theorem Memory.read?_emit {m : Memory} (h : m.wf = true) (bs : List Byte) (k : Nat) :
    (m.emit bs).read? k = if k < m.len then m.read? k else bs[k - m.len]? := by
  induction bs generalizing m with
  | nil => by_cases hk : k < m.len <;> simp [hk, read?]
  | cons b bs ih =>
    have hw : (m.emit [b]).wf = true := emit_wf h [b]
    rw [emit_cons, ih hw]
    have h1 : (m.emit [b]).read? k = if k = m.len then some b else
        if k < m.len then m.read? k else none := by
      have := read?_write h m.len b k
      simp only [emit, writeList]
      rw [this]
      by_cases hk : k = m.len
      · simp [hk]
      · by_cases hk2 : k < m.len <;> simp [hk, hk2]
    simp only [emit_len, List.length_singleton]
    rcases Nat.lt_trichotomy k m.len with hk | hk | hk
    · have h2 : k < m.len + 1 := by omega
      have h3 : k ≠ m.len := by omega
      simp [h1, hk, h2, h3]
    · subst hk; simp [h1]
    · have h2 : ¬ k < m.len + 1 := by omega
      have h3 : ¬ k < m.len := by omega
      have h4 : k - m.len = (k - (m.len + 1)) + 1 := by omega
      simp [h2, h3, h4]

/-! ### The byte sequence of a space -/

theorem Memory.readList_length_le (m : Memory) (a n : Nat) : (m.readList a n).length ≤ n := by
  induction n generalizing a with
  | zero => simp [readList]
  | succ n ih =>
    rw [readList]
    split
    · simpa using ih (a + 1)
    · simp

/-- Reading inside the space gives as many bytes as asked for. -/
theorem Memory.readList_length {m : Memory} {a n : Nat} (h : a + n ≤ m.len) :
    (m.readList a n).length = n := by
  induction n generalizing a with
  | zero => simp [readList]
  | succ n ih =>
    have ha : a < m.len := by omega
    simp [readList, read?, ha, ih (a := a + 1) (by omega)]

/-- The bytes read are the bytes of the addresses read. -/
theorem Memory.readList_getElem? (m : Memory) (a n k : Nat) :
    (m.readList a n)[k]? = if k < n then m.read? (a + k) else none := by
  induction n generalizing a k with
  | zero => simp [readList]
  | succ n ih =>
    rw [readList]
    cases hr : m.read? a with
    | none =>
      have hlen : m.len ≤ a := by
        by_contra hc
        simp [read?, Nat.lt_of_not_le hc] at hr
      have : m.read? (a + k) = none := by simp [read?]; omega
      simp [this]
    | some b =>
      cases k with
      | zero => simp [hr]
      | succ k =>
        have : a + (k + 1) = a + 1 + k := by omega
        simp [ih, this]

@[simp] theorem Memory.bytes_length (m : Memory) : m.bytes.length = m.len :=
  readList_length (by omega)

theorem Memory.bytes_getElem? (m : Memory) (k : Nat) : m.bytes[k]? = m.read? k := by
  rw [bytes, readList_getElem?]
  by_cases hk : k < m.len <;> simp [hk, read?]

/-- A read is a slice of the byte sequence. -/
theorem Memory.readList_eq (m : Memory) (a n : Nat) : m.readList a n = (m.bytes.drop a).take n := by
  apply List.ext_getElem?
  intro k
  rw [readList_getElem?, List.getElem?_take]
  by_cases hk : k < n <;> simp [hk, List.getElem?_drop, bytes_getElem?]

theorem Memory.bytes_emit {m : Memory} (h : m.wf = true) (bs : List Byte) :
    (m.emit bs).bytes = m.bytes ++ bs := by
  apply List.ext_getElem?
  intro k
  rw [bytes_getElem?, read?_emit h, List.getElem?_append]
  simp [bytes_getElem?]

@[simp] theorem Memory.bytes_empty : Memory.empty.bytes = [] := rfl

theorem Memory.ofBytes_wf (bs : List Byte) : (Memory.ofBytes bs).wf = true :=
  emit_wf empty_wf bs

@[simp] theorem Memory.ofBytes_len (bs : List Byte) : (Memory.ofBytes bs).len = bs.length := by
  simp [ofBytes]

@[simp] theorem Memory.bytes_ofBytes (bs : List Byte) : (Memory.ofBytes bs).bytes = bs := by
  rw [ofBytes, bytes_emit empty_wf]; rfl

/-- The byte space of a state that holds an op placed for the decoder is canonical. -/
theorem State.placeOp_wf {s : State} (h : s.dec.inp.wf = true) (bs : List Byte) :
    (s.placeOp bs).dec.inp.wf = true :=
  Memory.cellsWf_mono (Memory.writeList_wf h s.dec.pos bs) (Nat.le_refl 0) (Nat.le_max_left _ _)

end Sys2Proof.Machine
end

