-- ==== Sys2Proof/Laws/Ops.lean ====
section
/-! SUPPORT. The spec lemma of each shared operation over cache, registers and calls. -/

namespace Sys2Proof.Machine

/-! ### Hash and cache -/

/-- The slot number of a pixel, with the multipliers and the slot count put in (41_cache.md R73). -/
theorem pixelHash_val (p : Pixel) :
    (pixelHash p).val = (p.r.toNat * 3 + p.g.toNat * 5 + p.b.toNat * 7 + p.a.toNat * 11) % 64 := rfl

/-- A read after an update: the pixel in its slot, every other slot as before. -/
@[simp] theorem Cache.read_update (c : Cache) (p : Pixel) (h : Slot) :
    (c.update p).read h = if h = pixelHash p then p else c.read h := by
  simp only [Cache.read, Cache.update, Vector.get_eq_getElem, Vector.getElem_set]
  by_cases hh : h = pixelHash p
  · simp [hh]
  · have : (pixelHash p).val ≠ h.val := fun e => hh (Fin.ext e.symm)
    simp [hh, this]

@[simp] theorem Cache.read_reset (h : Slot) : Cache.reset.read h = Config.zeroPixel := by
  simp [Cache.read, Cache.reset, Vector.get_eq_getElem]

/-- Two caches that read alike are equal. -/
theorem Cache.ext_read {c c' : Cache} (h : ∀ i, c.read i = c'.read i) : c = c' := by
  apply Vector.ext
  intro i hi
  simpa [Cache.read, Vector.get_eq_getElem] using h ⟨i, hi⟩

@[simp] theorem Cache.update_update (c : Cache) (p : Pixel) : (c.update p).update p = c.update p := by
  apply Cache.ext_read
  intro i
  by_cases h : i = pixelHash p <;> simp [h]

/-- An update with the pixel a slot already holds changes nothing. -/
theorem Cache.update_of_read {c : Cache} {p : Pixel} (h : c.read (pixelHash p) = p) : c.update p = c := by
  apply Cache.ext_read
  intro i
  by_cases hi : i = pixelHash p <;> simp [hi, h]

/-! ### The most recent pixel of a hash -/

@[simp] theorem lastWithHash_nil (h : Slot) : lastWithHash h [] = Config.zeroPixel := rfl

theorem lastWithHash_concat (h : Slot) (l : List Pixel) (p : Pixel) :
    lastWithHash h (l ++ [p]) = if h = pixelHash p then p else lastWithHash h l := by
  by_cases hh : h = pixelHash p
  · simp [lastWithHash, List.filter_append, hh]
  · have : pixelHash p ≠ h := fun e => hh e.symm
    simp [lastWithHash, List.filter_append, hh, this]

theorem Cache.reflects_reset : Cache.reset.Reflects [] := fun h => by simp

/-- The eager update keeps the cache invariant (41_cache.md R77). -/
theorem Cache.Reflects.update {c : Cache} {l : List Pixel} (h : c.Reflects l) (p : Pixel) :
    (c.update p).Reflects (l ++ [p]) := fun i => by
  rw [read_update, lastWithHash_concat, h i]

/-- One update covers a whole run of one pixel (41_cache.md R77). -/
theorem Cache.Reflects.update_replicate {c : Cache} {l : List Pixel} (h : c.Reflects l) (p : Pixel)
    {n : Nat} (hn : 0 < n) : (c.update p).Reflects (l ++ List.replicate n p) := by
  induction n with
  | zero => omega
  | succ n ih =>
    rw [List.replicate_succ', ← List.append_assoc]
    cases n with
    | zero => simpa using h.update p
    | succ n => simpa using (ih (by omega)).update p

theorem getLastD_append_replicate (l : List Pixel) (p d : Pixel) {n : Nat} (hn : 0 < n) :
    (l ++ List.replicate n p).getLastD d = p := by
  cases n with
  | zero => omega
  | succ n => rw [List.replicate_succ', ← List.append_assoc]; simp

/-! ### Ending a call -/

section
variable (s : State)

theorem State.raise_enc {c : Cause} (h : c.engine = .dec) : (s.raise c).enc = s.enc := by
  cases c <;> simp_all [Cause.engine, State.raise]

theorem State.raise_dec {c : Cause} (h : c.engine = .enc) : (s.raise c).dec = s.dec := by
  cases c <;> simp_all [Cause.engine, State.raise]

@[simp] theorem State.raise_turn (c : Cause) : (s.raise c).turn = s.turn := by cases c <;> rfl

theorem State.raise_dec_idle {c : Cause} (h : c.engine = .dec) : (s.raise c).dec.stage = .idle := by
  cases c <;> simp_all [Cause.engine, State.raise]

/-- Of the decoder, a raise changes the status, the result registers and the stage alone. -/
theorem State.raise_dec_frame (c : Cause) :
    (s.raise c).dec.inp = s.dec.inp ∧ (s.raise c).dec.hdr = s.dec.hdr ∧
      (s.raise c).dec.pos = s.dec.pos ∧ (s.raise c).dec.px = s.dec.px ∧
      (s.raise c).dec.out = s.dec.out ∧ (s.raise c).dec.outcnt = s.dec.outcnt ∧
      (s.raise c).dec.cache = s.dec.cache := by
  cases c <;> exact ⟨rfl, rfl, rfl, rfl, rfl, rfl, rfl⟩

end

/-! ### Which engine moves -/

theorem State.mover_dec {s : State} (h : s.DecFirst) (hb : s.dec.stage ≠ .idle) :
    s.mover = some .dec := by
  rcases h with h | h
  · simp [State.mover, State.busy, h, hb]
  · cases ht : s.turn <;> simp [State.mover, State.busy, Engine.other, ht, h, hb]

theorem State.mover_enc {s : State} (h : s.EncFirst) (hb : s.enc.stage ≠ .idle) :
    s.mover = some .enc := by
  rcases h with h | h
  · simp [State.mover, State.busy, h, hb]
  · cases ht : s.turn <;> simp [State.mover, State.busy, Engine.other, ht, h, hb]

/-- The engine that moves is busy. -/
theorem State.busy_of_mover {s : State} {x : Engine} (h : s.mover = some x) : s.busy x = true := by
  unfold State.mover at h
  split at h
  · cases h; assumption
  · split at h
    · cases h; assumption
    · cases h

end Sys2Proof.Machine
end

