-- ==== Sys2Proof/Laws/Decode.lean ====
section
/-! SUPPORT. The byte facts under the decoder and the encoder: what the bytes of an op select and
hold, and what a leading byte's fields rebuild. Each is a small closed fact about one byte. -/

namespace Sys2Proof

open Machine

/-! ### From operands to bytes -/

theorem index_byte (i : Slot) :
    dispatch (BitVec.ofNat 8 i.val) = .index ∧ slotField (BitVec.ofNat 8 i.val) = i := by
  revert i; decide

theorem run_byte {n : Nat} (h : inRunRange n) :
    dispatch (0xC0#8 ||| BitVec.ofNat 8 (n - 1)) = .run ∧
      field (0xC0#8 ||| BitVec.ofNat 8 (n - 1)) 5 0 + 1 = n := by
  have key : ∀ k : Fin 62, dispatch (0xC0#8 ||| BitVec.ofNat 8 k.val) = .run ∧
      field (0xC0#8 ||| BitVec.ofNat 8 k.val) 5 0 = k.val := by decide
  have h2 : n - 1 < 62 := by have := h.2; simp only [Config.runMax] at this; omega
  obtain ⟨h3, h4⟩ := key ⟨n - 1, h2⟩
  exact ⟨h3, by have := h.1; simp only at h4; omega⟩

theorem luma_first_byte {dg : Int} (h : inLumaGRange dg) :
    dispatch (0x80#8 ||| biased dg Config.lumaGBias) = .luma ∧
      unbias (field (0x80#8 ||| biased dg Config.lumaGBias) 5 0) Config.lumaGBias = dg := by
  have key : ∀ k : Fin 64,
      dispatch (0x80#8 ||| biased ((k.val : Int) - 32) Config.lumaGBias) = .luma ∧
      unbias (field (0x80#8 ||| biased ((k.val : Int) - 32) Config.lumaGBias) 5 0)
        Config.lumaGBias = (k.val : Int) - 32 := by decide
  obtain ⟨h1, h2⟩ := h
  have hk : (dg + 32).toNat < 64 := by omega
  have he : ((dg + 32).toNat : Int) - 32 = dg := by omega
  simpa only [he] using key ⟨(dg + 32).toNat, hk⟩

theorem luma_second_byte {drg dbg : Int} (hr : inLumaRBRange drg) (hb : inLumaRBRange dbg) :
    unbias (field (biased drg Config.lumaRBBias <<< 4 ||| biased dbg Config.lumaRBBias) 7 4)
        Config.lumaRBBias = drg ∧
      unbias (field (biased drg Config.lumaRBBias <<< 4 ||| biased dbg Config.lumaRBBias) 3 0)
        Config.lumaRBBias = dbg := by
  have key : ∀ j k : Fin 16,
      unbias (field (biased ((j.val : Int) - 8) Config.lumaRBBias <<< 4 |||
        biased ((k.val : Int) - 8) Config.lumaRBBias) 7 4) Config.lumaRBBias = (j.val : Int) - 8 ∧
      unbias (field (biased ((j.val : Int) - 8) Config.lumaRBBias <<< 4 |||
        biased ((k.val : Int) - 8) Config.lumaRBBias) 3 0) Config.lumaRBBias =
          (k.val : Int) - 8 := by decide
  obtain ⟨hr1, hr2⟩ := hr
  obtain ⟨hb1, hb2⟩ := hb
  have ej : ((drg + 8).toNat : Int) - 8 = drg := by omega
  have ek : ((dbg + 8).toNat : Int) - 8 = dbg := by omega
  simpa only [ej, ek] using key ⟨(drg + 8).toNat, by omega⟩ ⟨(dbg + 8).toNat, by omega⟩

theorem diff_byte {dr dg db : Int} (hr : inDiffRange dr) (hg : inDiffRange dg)
    (hb : inDiffRange db) :
    dispatch (0x40#8 ||| biased dr Config.diffBias <<< 4 ||| biased dg Config.diffBias <<< 2
        ||| biased db Config.diffBias) = .diff ∧
      unbias (field (0x40#8 ||| biased dr Config.diffBias <<< 4 ||| biased dg Config.diffBias <<< 2
        ||| biased db Config.diffBias) 5 4) Config.diffBias = dr ∧
      unbias (field (0x40#8 ||| biased dr Config.diffBias <<< 4 ||| biased dg Config.diffBias <<< 2
        ||| biased db Config.diffBias) 3 2) Config.diffBias = dg ∧
      unbias (field (0x40#8 ||| biased dr Config.diffBias <<< 4 ||| biased dg Config.diffBias <<< 2
        ||| biased db Config.diffBias) 1 0) Config.diffBias = db := by
  have key : ∀ i j k : Fin 4,
      let b := 0x40#8 ||| biased ((i.val : Int) - 2) Config.diffBias <<< 4 |||
        biased ((j.val : Int) - 2) Config.diffBias <<< 2 |||
        biased ((k.val : Int) - 2) Config.diffBias
      dispatch b = .diff ∧ unbias (field b 5 4) Config.diffBias = (i.val : Int) - 2 ∧
        unbias (field b 3 2) Config.diffBias = (j.val : Int) - 2 ∧
        unbias (field b 1 0) Config.diffBias = (k.val : Int) - 2 := by decide
  obtain ⟨hr1, hr2⟩ := hr
  obtain ⟨hg1, hg2⟩ := hg
  obtain ⟨hb1, hb2⟩ := hb
  have ei : ((dr + 2).toNat : Int) - 2 = dr := by omega
  have ej : ((dg + 2).toNat : Int) - 2 = dg := by omega
  have ek : ((db + 2).toNat : Int) - 2 = db := by omega
  simpa only [ei, ej, ek] using
    key ⟨(dr + 2).toNat, by omega⟩ ⟨(dg + 2).toNat, by omega⟩ ⟨(db + 2).toNat, by omega⟩

/-! ### From a leading byte to operands -/

/-- Every leading byte selects an op whose operands are in range, and the encoder rebuilds it. -/
theorem leading_byte_rebuilds (b : Byte) :
    (dispatch b = .rgba → b = Config.tagRgba) ∧ (dispatch b = .rgb → b = Config.tagRgb) ∧
    (dispatch b = .index → BitVec.ofNat 8 (slotField b).val = b) ∧
    (dispatch b = .diff → Instr.wf (.diff (unbias (field b 5 4) Config.diffBias)
        (unbias (field b 3 2) Config.diffBias) (unbias (field b 1 0) Config.diffBias)) = true ∧
      encode (.diff (unbias (field b 5 4) Config.diffBias)
        (unbias (field b 3 2) Config.diffBias) (unbias (field b 1 0) Config.diffBias)) = [b]) ∧
    (dispatch b = .luma → inLumaGRange (unbias (field b 5 0) Config.lumaGBias) ∧
      0x80#8 ||| biased (unbias (field b 5 0) Config.lumaGBias) Config.lumaGBias = b) ∧
    (dispatch b = .run → Instr.wf (.run (field b 5 0 + 1)) = true ∧
      encode (.run (field b 5 0 + 1)) = [b]) := by
  revert b; decide

theorem luma_payload_rebuilds (b : Byte) :
    inLumaRBRange (unbias (field b 7 4) Config.lumaRBBias) ∧
      inLumaRBRange (unbias (field b 3 0) Config.lumaRBBias) ∧
      biased (unbias (field b 7 4) Config.lumaRBBias) Config.lumaRBBias <<< 4 |||
        biased (unbias (field b 3 0) Config.lumaRBBias) Config.lumaRBBias = b := by
  revert b; decide

end Sys2Proof
end

