-- ==== Sys2Proof/Laws/Step.lean ====
section
/-! SUPPORT. What a step and an op can do, said once: the equations of `step` by where the engine
stands, the inversion lemma of `step`, and the effect of every op. -/

namespace Sys2Proof.Machine

/-! ### The equations of `step` -/

theorem step_idle {s : State} (h : s.mover = none) : step s = .next s := by simp [step, h]

theorem step_of_dec {s : State} (h : s.mover = some .dec) : step s = decMove s := by simp [step, h]

theorem step_of_enc {s : State} (h : s.mover = some .enc) : step s = .next (encMove s) := by
  simp [step, h]

theorem step_at_dec_start {s : State} (h : s.AtDecStart) : step s = .next (decStart s) := by
  rw [step_of_dec h.1, decMove, h.2]

theorem step_at_dec_finish {s : State} (h : s.AtDecFinish) : step s = .next (decFinish s) := by
  rw [step_of_dec h.1, decMove, h.2.1]
  exact if_neg (Nat.not_lt.mpr h.2.2)

theorem step_at_op {s : State} (h : s.AtOp) :
    step s = match decode s.dec.fetchBytes with
      | .ok (i, _) => exec i s
      | .error _ => .fault (.fetchOutsideIn s.dec.pos) := by
  rw [step_of_dec h.1, decMove, h.2.1]
  exact if_pos h.2.2

theorem step_at_enc_start {s : State} (h : s.AtEncStart) : step s = .next (encStart s) := by
  rw [step_of_enc h.1, encMove, h.2]

theorem step_at_pixel {s : State} {cur : Pixel} (h : s.AtPixel cur) :
    step s = .next (encStepPixel cur s) := by
  rw [step_of_enc h.1]
  simp only [encMove, h.2.1, h.2.2]

theorem step_at_enc_finish {s : State} (h : s.AtEncFinish) : step s = .next (encFinish s) := by
  have hn : s.enc.pix[s.enc.ipx]? = none := List.getElem?_eq_none h.2.2
  rw [step_of_enc h.1]
  simp only [encMove, h.2.1, hn]

/-! ### The inversion lemma of `step` -/

/-- Everything a step that answers a next state can have been. -/
theorem step_cases {s t : State} (h : step s = .next t) :
    t = s ∨ (s.AtDecStart ∧ t = decStart s) ∨
    (s.AtOp ∧ ∃ i rest, decode s.dec.fetchBytes = .ok (i, rest) ∧ exec i s = .next t) ∨
    (s.AtDecFinish ∧ t = decFinish s) ∨ (s.AtEncStart ∧ t = encStart s) ∨
    (∃ cur, s.AtPixel cur ∧ t = encStepPixel cur s) ∨ (s.AtEncFinish ∧ t = encFinish s) := by
  cases hm : s.mover with
  | none => rw [step_idle hm] at h; cases h; exact .inl rfl
  | some x =>
    cases x with
    | dec =>
      cases hs : s.dec.stage with
      | idle => have := State.busy_of_mover hm; simp [State.busy, hs] at this
      | start =>
        rw [step_at_dec_start ⟨hm, hs⟩] at h; cases h; exact .inr (.inl ⟨⟨hm, hs⟩, rfl⟩)
      | loop =>
        by_cases hp : s.dec.pos < s.dec.endPos
        · have ha : s.AtOp := ⟨hm, hs, hp⟩
          rw [step_at_op ha] at h
          cases hd : decode s.dec.fetchBytes with
          | error e => rw [hd] at h; cases h
          | ok r => rw [hd] at h; exact .inr (.inr (.inl ⟨ha, r.1, r.2, rfl, h⟩))
        · have ha : s.AtDecFinish := ⟨hm, hs, Nat.not_lt.mp hp⟩
          rw [step_at_dec_finish ha] at h; cases h
          exact .inr (.inr (.inr (.inl ⟨ha, rfl⟩)))
    | enc =>
      cases hs : s.enc.stage with
      | idle => have := State.busy_of_mover hm; simp [State.busy, hs] at this
      | start =>
        rw [step_at_enc_start ⟨hm, hs⟩] at h; cases h
        exact .inr (.inr (.inr (.inr (.inl ⟨⟨hm, hs⟩, rfl⟩))))
      | loop =>
        cases hp : s.enc.pix[s.enc.ipx]? with
        | some cur =>
          have ha : s.AtPixel cur := ⟨hm, hs, hp⟩
          rw [step_at_pixel ha] at h; cases h
          exact .inr (.inr (.inr (.inr (.inr (.inl ⟨cur, ha, rfl⟩)))))
        | none =>
          have ha : s.AtEncFinish := ⟨hm, hs, List.getElem?_eq_none_iff.mp hp⟩
          rw [step_at_enc_finish ha] at h; cases h
          exact .inr (.inr (.inr (.inr (.inr (.inr ⟨ha, rfl⟩)))))

/-! ### The effect of an op -/

/-- The pixel an op leaves in `px`. -/
def opPixel (i : Instr) (d : DecState) : Pixel :=
  match i with
  | .rgba r g b a => ⟨r, g, b, a⟩
  | .rgb r g b => ⟨r, g, b, d.px.a⟩
  | .index slot => d.cache.read slot
  | .diff dr dg db => shiftPixel d.px dr dg db
  | .luma dg drg dbg => shiftPixel d.px (dg + drg) dg (dg + dbg)
  | .run _ => d.px

/-- How many pixels an op appends. -/
def opCount : Instr → Nat
  | .rgba _ _ _ _ => 1
  | .rgb _ _ _ => 1
  | .index _ => 1
  | .diff _ _ _ => 1
  | .luma _ _ _ => 1
  | .run n => n

theorem opCount_pos {i : Instr} (h : i.wf = true) : 0 < opCount i := by
  cases i with
  | run n => simp only [Instr.wf, decide_eq_true_eq] at h; exact h.1
  | _ => exact Nat.one_pos

/-- The decoder after an op, as one record update: later proofs cite this, not the meanings. -/
def decAfterOp (i : Instr) (d : DecState) : DecState :=
  { d with
    px := opPixel i d
    out := d.out ++ List.replicate (opCount i) (opPixel i d)
    outcnt := d.outcnt + opCount i
    cache := d.cache.update (opPixel i d)
    pos := d.pos + i.kind.length }

/-- Every op answers a next state, and only the decoder changes. -/
theorem exec_eq (i : Instr) (s : State) : exec i s = .next (s.onDec (decAfterOp i)) := by
  cases i with
  | run n =>
    simp [exec, execRun, State.onDec, DecState.outPushTimes_eq, DecState.tail, decAfterOp,
      opPixel, opCount, Instr.kind]
  | _ => rfl

/-- What one op changes and leaves, for every op. -/
theorem exec_effect (i : Instr) (s : State) :
    OpEffect s (s.onDec (decAfterOp i)) (opPixel i s.dec) (opCount i)
      i.kind.length where
  px := rfl
  out := rfl
  outcnt := rfl
  slot := by simp [decAfterOp]
  otherSlots := fun h hh => by simp [decAfterOp, hh]
  pos := rfl
  inBytes := fun _ => rfl
  inLen := rfl
  hdr := rfl
  status := rfl
  errProduced := rfl
  errExpected := rfl
  diagFound := rfl
  stage := rfl
  enc := rfl
  turn := rfl

/-! ### Fetching -/

/-- The loop test puts the longest op inside `IN`, whatever the state. -/
theorem State.AtOp.inside {s : State} (h : s.AtOp) : s.dec.pos + 5 ≤ s.dec.inp.len := by
  have := h.2.2
  simp only [DecState.endPos, Config.endMarkerLen] at this
  omega

theorem State.AtOp.fetch_length {s : State} (h : s.AtOp) : s.dec.fetchBytes.length = 5 :=
  Memory.readList_length h.inside

/-- Reading fewer bytes reads the front of the longer read. -/
theorem Memory.take_readList (m : Memory) (a : Nat) {n k : Nat} (h : k ≤ n) :
    (m.readList a n).take k = m.readList a k := by
  rw [readList_eq, readList_eq, List.take_take, Nat.min_eq_left h]

/-- Where the first bytes at `pos` are known, so is the front of what is fetched. -/
theorem DecState.fetchBytes_of_readList {d : DecState} {n : Nat} {bs : List Byte} (hn : n ≤ 5)
    (h : d.inp.readList d.pos n = bs) : ∃ rest, d.fetchBytes = bs ++ rest := by
  refine ⟨d.fetchBytes.drop n, ?_⟩
  have : d.fetchBytes.take n = bs := by
    rw [DecState.fetchBytes, maxOpLen, Memory.take_readList _ _ hn, h]
  rw [← this, List.take_append_drop]

end Sys2Proof.Machine
end

