-- ==== Sys2Proof/Laws/Calls.lean ====
section
/-! SUPPORT. The spec lemmas of the operations that start, walk and end a call: each branch of each
operation as one equation, so that no later proof unfolds them. -/

namespace Sys2Proof.Machine

/-! ### The header -/

theorem hdrParse_ok {bs : List Byte} {h : Header} (hh : hdrParse bs = .ok h) :
    bs.take 4 = Config.magic := by
  unfold hdrParse at hh
  split at hh
  · assumption
  · cases hh

theorem hdrParse_error {bs found : List Byte} (hh : hdrParse bs = .error found) :
    bs.take 4 ≠ Config.magic ∧ found = bs.take 4 := by
  unfold hdrParse at hh
  split at hh
  · cases hh
  · cases hh; exact ⟨by assumption, rfl⟩

/-- A big-endian number as a sum (20_memory.md R34). -/
theorem be32_toNat (a b c d : Byte) :
    (be32 a b c d).toNat =
      a.toNat * 2 ^ 24 + b.toNat * 2 ^ 16 + c.toNat * 2 ^ 8 + d.toNat := by
  have := a.isLt
  have := b.isLt
  have := c.isLt
  have := d.isLt
  simp only [be32, BitVec.toNat_append]
  rw [← Nat.shiftLeft_add_eq_or_of_lt (by omega), ← Nat.shiftLeft_add_eq_or_of_lt (by omega),
    ← Nat.shiftLeft_add_eq_or_of_lt (by omega)]
  simp only [Nat.shiftLeft_eq]
  omega

theorem be32_extract (v : BitVec 32) :
    be32 (v.extractLsb' 24 8) (v.extractLsb' 16 8) (v.extractLsb' 8 8) (v.extractLsb' 0 8) = v := by
  apply BitVec.eq_of_toNat_eq
  rw [be32_toNat]
  have := v.isLt
  simp only [BitVec.extractLsb'_toNat, Nat.shiftRight_eq_div_pow]
  omega

theorem bytesBE32_be32 (a b c d : Byte) : bytesBE32 (be32 a b c d) = [a, b, c, d] := by
  have := be32_toNat a b c d
  have := a.isLt
  have := b.isLt
  have := c.isLt
  have := d.isLt
  simp only [bytesBE32, List.cons.injEq, and_true]
  refine ⟨?_, ?_, ?_, ?_⟩ <;> apply BitVec.eq_of_toNat_eq <;>
    simp only [BitVec.extractLsb'_toNat, Nat.shiftRight_eq_div_pow] <;> omega

@[simp] theorem hdrSerialize_length (h : Header) : (hdrSerialize h).length = 14 := rfl

/-- The image size fits `ERR_EXPECTED` (40_header.md R68). -/
theorem Header.imageSize_lt (h : Header) : h.imageSize < 2 ^ 64 :=
  calc h.imageSize < 2 ^ 32 * 2 ^ 32 := Nat.mul_lt_mul'' h.width.isLt h.height.isLt
    _ = 2 ^ 64 := by norm_num

/-- A channel after a wrap-around shift. -/
theorem addWrap_toNat (c : Byte) (d : Int) : ((addWrap c d).toNat : Int) = (c.toNat + d) % 256 := by
  simp only [addWrap, wrap8, BitVec.toNat_ofInt]
  omega

/-! ### DEC.START -/

section
variable {s : State}

theorem decStart_short (h : s.dec.inp.len < Config.headerLen) :
    decStart s = (s.onDec fun d => { d with status := .running }).raise .shortInput :=
  if_pos h

theorem decStart_badMagic {found : List Byte} (h : ¬ s.dec.inp.len < Config.headerLen)
    (hp : hdrParse (s.dec.inp.readList 0 Config.headerLen) = .error found) :
    decStart s = (s.onDec fun d => { d with status := .running }).raise (.badMagic found) := by
  simp only [decStart, if_neg h, hp]

theorem decStart_noMarker {hdr : Header} (h : ¬ s.dec.inp.len < Config.headerLen)
    (hp : hdrParse (s.dec.inp.readList 0 Config.headerLen) = .ok hdr)
    (h2 : s.dec.inp.len < Config.headerLen + Config.endMarkerLen) :
    decStart s =
      (s.onDec fun d => { d with status := .running, hdr := hdr }).raise
        (.badEndMarker
          (s.dec.inp.readList Config.headerLen (s.dec.inp.len - Config.headerLen))) := by
  simp only [decStart, if_neg h, hp, if_pos h2]
  rfl

theorem decStart_loop {hdr : Header} (h : ¬ s.dec.inp.len < Config.headerLen)
    (hp : hdrParse (s.dec.inp.readList 0 Config.headerLen) = .ok hdr)
    (h2 : ¬ s.dec.inp.len < Config.headerLen + Config.endMarkerLen) :
    decStart s = s.onDec fun d => { d with status := .running }.initLoop hdr := by
  simp only [decStart, if_neg h, hp, if_neg h2]
  rfl

/-! ### DEC.FINISH -/

theorem decFinish_badMarker
    (h : s.dec.pos ≠ s.dec.endPos ∨
      s.dec.inp.readList s.dec.endPos Config.endMarkerLen ≠ Config.endMarker) :
    decFinish s =
      s.raise (.badEndMarker (s.dec.inp.readList s.dec.endPos Config.endMarkerLen)) := by
  unfold decFinish
  by_cases h1 : s.dec.pos = s.dec.endPos
  · have h2 := h.resolve_left (not_not.mpr h1)
    simp only [if_neg (not_not.mpr h1), if_pos h2]
  · exact if_pos h1

theorem decFinish_mismatch (h1 : s.dec.pos = s.dec.endPos)
    (h2 : s.dec.inp.readList s.dec.endPos Config.endMarkerLen = Config.endMarker)
    (h3 : s.dec.outcnt ≠ s.dec.hdr.imageSize) :
    decFinish s = s.raise (.sizeMismatch s.dec.outcnt s.dec.hdr.imageSize) := by
  unfold decFinish
  simp only [if_neg (not_not.mpr h1), if_neg (not_not.mpr h2), if_pos h3]

theorem decFinish_ok (h1 : s.dec.pos = s.dec.endPos)
    (h2 : s.dec.inp.readList s.dec.endPos Config.endMarkerLen = Config.endMarker)
    (h3 : s.dec.outcnt = s.dec.hdr.imageSize) :
    decFinish s = s.onDec fun d => { d with status := .doneOk, stage := .idle } := by
  unfold decFinish
  simp only [if_neg (not_not.mpr h1), if_neg (not_not.mpr h2), if_neg (not_not.mpr h3)]

/-- Whatever DEC.FINISH finds, the call is over and only status, results and stage are written. -/
theorem decFinish_frame (s : State) :
    ((decFinish s).enc = s.enc ∧ (decFinish s).turn = s.turn) ∧
    (decFinish s).dec.stage = .idle ∧ (decFinish s).dec.inp = s.dec.inp ∧
      (decFinish s).dec.hdr = s.dec.hdr ∧ (decFinish s).dec.pos = s.dec.pos ∧
      (decFinish s).dec.px = s.dec.px ∧ (decFinish s).dec.out = s.dec.out ∧
      (decFinish s).dec.outcnt = s.dec.outcnt ∧ (decFinish s).dec.cache = s.dec.cache := by
  unfold decFinish
  dsimp only
  split
  · exact ⟨⟨rfl, rfl⟩, rfl, rfl, rfl, rfl, rfl, rfl, rfl, rfl⟩
  · split
    · exact ⟨⟨rfl, rfl⟩, rfl, rfl, rfl, rfl, rfl, rfl, rfl, rfl⟩
    · split <;> exact ⟨⟨rfl, rfl⟩, rfl, rfl, rfl, rfl, rfl, rfl, rfl, rfl⟩

/-! ### ENC.START -/

theorem encStart_refuse (h : s.enc.pixLen ≠ s.enc.cfg.imageSize) :
    encStart s =
      (s.onEnc fun e => { e with status := .running, hdr := e.cfg }).raise .encPrecondition :=
  if_pos h

theorem encStart_go (h : s.enc.pixLen = s.enc.cfg.imageSize) :
    encStart s =
      s.onEnc fun e => { e with
        status := .running
        hdr := e.cfg
        outb := Memory.empty.emit (hdrSerialize e.cfg)
        prev := Config.pxReset
        run := 0
        ipx := 0
        cache := Cache.reset
        stage := .loop } :=
  if_neg (not_not.mpr h)

end

/-! ### ENC.STEP and ENC.FINISH -/

section
variable {e : EncState}

/-- The run counter reaches the cap exactly from 61. -/
theorem EncState.run_cap_iff :
    e.run + 1 = BitVec.ofNat 6 Config.runMax ↔ e.run.toNat = 61 := by
  constructor
  · intro h
    have := congrArg BitVec.toNat h
    simp [Config.runMax] at this
    omega
  · intro h
    apply BitVec.eq_of_toNat_eq
    simp [Config.runMax, h]

theorem EncState.extendRun_below (h : e.run.toNat ≠ 61) :
    e.extendRun = { e with run := e.run + 1 } :=
  if_neg fun hc => h (run_cap_iff.mp hc)

theorem EncState.extendRun_cap (h : e.run.toNat = 61) :
    e.extendRun = { e with
      run := 0, outb := e.outb.emit [0xFD], cache := e.cache.update e.prev } := by
  have hc := run_cap_iff.mpr h
  have h62 : e.run + 1 = 62#6 := hc
  unfold EncState.extendRun
  simp only [if_pos hc]
  simp only [flushRun, emitOp, h62]
  rfl

theorem EncState.run_toNat_pos (h : e.run ≠ 0) : 0 < e.run.toNat :=
  Nat.pos_of_ne_zero fun hz => h (BitVec.eq_of_toNat_eq hz)

theorem EncState.flushIfPending_none (h : e.run = 0) : e.flushIfPending = e := if_pos h

theorem EncState.flushIfPending_some (h : e.run ≠ 0) :
    e.flushIfPending = { e with
      outb := e.outb.emit (encode (.run e.run.toNat))
      cache := e.cache.update e.prev
      run := 0 } :=
  if_neg h

/-- The flush of a pending run, in the words of the claims, whether or not one is pending. -/
theorem EncState.flushIfPending_eq :
    e.flushIfPending = { e with
      outb := e.outb.emit e.pendingBytes, cache := e.testCache, run := 0 } := by
  by_cases h : e.run = 0
  · rw [flushIfPending_none h, pendingBytes, testCache, if_pos h, if_pos h]
    rcases e with ⟨_, _, _, _, _, run, _, _, _, _⟩
    cases h
    rfl
  · rw [flushIfPending_some h, pendingBytes, testCache, if_neg h, if_neg h]
    rfl

/-- The choice of op after the flush, in terms of the state before it (43_encoder.md R103). -/
theorem EncState.chooseOp_flushIfPending (cur : Pixel) :
    e.flushIfPending.chooseOp cur =
      if e.testCache.read (pixelHash cur) = cur then .index (pixelHash cur)
      else if cur.a = e.prev.a then
        if (delta cur e.prev).fitDiff then
          .diff (delta cur e.prev).dr (delta cur e.prev).dg (delta cur e.prev).db
        else if (delta cur e.prev).fitLuma then
          .luma (delta cur e.prev).dg ((delta cur e.prev).dr - (delta cur e.prev).dg)
            ((delta cur e.prev).db - (delta cur e.prev).dg)
        else .rgb cur.r cur.g cur.b
      else .rgba cur.r cur.g cur.b cur.a := by
  rw [flushIfPending_eq]
  rfl

end

section
variable {s : State} {cur : Pixel}

/-- A step on a pixel equal to `prev`. -/
theorem encStepPixel_same (h : cur = s.enc.prev) :
    encStepPixel cur s = s.onEnc fun e => { e.extendRun with ipx := e.extendRun.ipx + 1 } := by
  simp only [encStepPixel, State.onEnc, if_pos h]

/-- A step on a pixel that differs from `prev`, as one record update. -/
theorem encStepPixel_differs (h : cur ≠ s.enc.prev) :
    encStepPixel cur s = s.onEnc fun e => { e with
      outb := (e.outb.emit e.pendingBytes).emit (encode (e.flushIfPending.chooseOp cur))
      cache := e.testCache.update cur
      prev := cur
      run := 0
      ipx := e.ipx + 1 } := by
  simp only [encStepPixel, State.onEnc, if_neg h, EncState.encodePixel, EncState.emitOp]
  rw [EncState.flushIfPending_eq]

/-- ENC.FINISH, as one record update. -/
theorem encFinish_eq (s : State) :
    encFinish s = s.onEnc fun e => { e with
      outb := (e.outb.emit e.pendingBytes).emit Config.endMarker
      cache := e.testCache
      run := 0
      status := .doneOk
      stage := .idle } := by
  simp only [encFinish, State.onEnc]
  rw [EncState.flushIfPending_eq]

/-- The effect of an encoder step on a pixel that differs from `prev`, whatever op is chosen. -/
theorem encStepPixel_effect (hw : s.enc.outb.wf = true) (hne : cur ≠ s.enc.prev) :
    PixelEffect s (encStepPixel cur s) cur (encode (s.enc.flushIfPending.chooseOp cur)) := by
  have hw' : (s.enc.outb.emit s.enc.pendingBytes).wf = true := Memory.emit_wf hw _
  rw [encStepPixel_differs hne]
  constructor
  case outb => simp [Memory.bytes_emit hw, Memory.bytes_emit hw']
  case slot => simp
  case otherSlots => intro h hh; simp [hh]
  all_goals rfl

end

/-! ### The host's moves -/

theorem startDecode_next {s t : State} {bytes : List Byte} (h : s.startDecode bytes = .next t) :
    s.dec.stage = .idle ∧
      t = { s with
        dec := { DecState.reset with inp := Memory.ofBytes bytes, stage := .start } } := by
  unfold State.startDecode at h
  split at h
  · cases h
  · rename_i hb
    cases h
    exact ⟨by simpa [State.busy] using hb, rfl⟩

theorem startEncode_next {s t : State} {pix : List Pixel} {cfg : Header}
    (h : s.startEncode pix cfg = .next t) :
    s.enc.stage = .idle ∧
      t = { s with
        enc := { EncState.reset with pix := pix, cfg := cfg, hdr := cfg, stage := .start } } := by
  unfold State.startEncode at h
  split at h
  · cases h
  · rename_i hb
    cases h
    exact ⟨by simpa [State.busy] using hb, rfl⟩

/-! ### Each engine's move is local -/

/-- The decoder's move reads and writes the decoder alone. -/
theorem decMove_local {s u t : State} (hu : u.dec = s.dec) (h : decMove s = .next t) :
    decMove u = .next ⟨t.dec, u.enc, u.turn⟩ := by
  obtain ⟨d, ue, ut⟩ := u
  obtain ⟨sd, se, st⟩ := s
  cases hu
  unfold decMove at h ⊢
  dsimp only at h ⊢
  cases hs : d.stage with
  | idle => simp only [hs] at h ⊢; cases h; rfl
  | start =>
    simp only [hs] at h ⊢; cases h
    by_cases h1 : d.inp.len < Config.headerLen
    · rw [decStart_short h1, decStart_short h1]; rfl
    · cases hp : hdrParse (d.inp.readList 0 Config.headerLen) with
      | error f => rw [decStart_badMagic h1 hp, decStart_badMagic h1 hp]; rfl
      | ok hd =>
        by_cases h2 : d.inp.len < Config.headerLen + Config.endMarkerLen
        · rw [decStart_noMarker h1 hp h2, decStart_noMarker h1 hp h2]; rfl
        · rw [decStart_loop h1 hp h2, decStart_loop h1 hp h2]; rfl
  | loop =>
    simp only [hs] at h ⊢
    split at h
    · rename_i hp
      rw [if_pos hp]
      cases hd : decode d.fetchBytes with
      | error e => rw [hd] at h; cases h
      | ok r =>
        rw [hd] at h
        simp only [exec_eq] at h ⊢
        cases h; rfl
    · rename_i hp
      rw [if_neg hp]
      cases h
      unfold decFinish
      dsimp only
      split
      · rfl
      · split
        · rfl
        · split <;> rfl

/-- The encoder's move reads and writes the encoder alone. -/
theorem encMove_local {s u : State} (hu : u.enc = s.enc) :
    encMove u = ⟨u.dec, (encMove s).enc, u.turn⟩ := by
  obtain ⟨ud, e, ut⟩ := u
  obtain ⟨sd, se, st⟩ := s
  cases hu
  unfold encMove
  dsimp only
  cases e.stage with
  | idle => rfl
  | start =>
    dsimp only
    by_cases h : e.pixLen = e.cfg.imageSize
    · rw [encStart_go h, encStart_go h]; rfl
    · rw [encStart_refuse h, encStart_refuse h]; rfl
  | loop =>
    dsimp only
    cases e.pix[e.ipx]? <;> rfl

/-! ### Sequences of steps -/

theorem Steps.refl (s : State) : Steps 0 s s := rfl

/-- A run of one step more: a step, then the run. -/
theorem run_succ_iff (M : Host.Core) (n : Nat) (s t : M.State) :
    M.run (n + 1) s = .next t ↔ ∃ u, M.step s = .next u ∧ M.run n u = .next t := by
  rw [Host.Core.run]
  cases M.step s with
  | next u => exact ⟨fun h => ⟨u, rfl, h⟩, fun ⟨_, hu, h⟩ => by cases hu; exact h⟩
  | fault r => exact ⟨fun h => (by cases h), fun ⟨_, hu, _⟩ => (by cases hu)⟩
  | refused r => exact ⟨fun h => (by cases h), fun ⟨_, hu, _⟩ => (by cases hu)⟩

theorem Steps.succ_iff {n : Nat} {s t : State} :
    Steps (n + 1) s t ↔ ∃ u, step s = .next u ∧ Steps n u t :=
  run_succ_iff core n s t

theorem Steps.cons {n : Nat} {s u t : State} (h : step s = .next u) (h' : Steps n u t) :
    Steps (n + 1) s t := succ_iff.mpr ⟨u, h, h'⟩

theorem Steps.one {s t : State} (h : step s = .next t) : Steps 1 s t := cons h (refl t)

theorem Steps.trans {n m : Nat} {s u t : State} (h : Steps n s u) (h' : Steps m u t) :
    Steps (n + m) s t := by
  induction n generalizing s with
  | zero =>
    have hs : (Host.Outcome.next s : Host.Outcome State Fault Refusal) = .next u := h
    cases hs
    rwa [Nat.zero_add]
  | succ n ih =>
    obtain ⟨v, hv, hn⟩ := succ_iff.mp h
    have := cons hv (ih hn)
    rwa [Nat.add_right_comm] at this

end Sys2Proof.Machine
end

