-- ==== Sys2Proof/Laws/Invariant.lean ====
section
/-! SUPPORT. What each operation does to the invariants of the two engines, one lemma per operation. -/

namespace Sys2Proof.Machine

/-! ### Decoder -/

/-- An op with at least one pixel, run before `END_POS`, keeps the decoder's invariant. -/
theorem DecState.Inv.afterOp {s : State} {i : Instr} (h : s.AtOp) (hw : i.wf = true)
    (hi : s.dec.Inv) : (decAfterOp i s.dec).Inv where
  inWf := hi.inWf
  counted := by simp [decAfterOp, hi.counted]
  posLow := Nat.le_trans hi.posLow (Nat.le_add_right _ _)
  lastPixel := (getLastD_append_replicate _ _ _ (opCount_pos hw)).symm
  cacheLast := hi.cacheLast.update_replicate _ (opCount_pos hw)
  starting := hi.starting
  looping := fun hs => by
    obtain ⟨a, b, c, d⟩ := hi.looping hs
    refine ⟨a, b, ?_, d⟩
    have := h.2.2
    have h5 : i.kind.length ≤ 5 := by cases i.kind <;> simp [OpKind.length]
    show s.dec.pos + i.kind.length ≤ s.dec.endPos + 4
    omega

/-- The first state of the loop meets the decoder's invariant. -/
theorem DecState.Inv.initLoop {d : DecState} {hdr : Header} (hi : d.Inv)
    (h2 : ¬ d.inp.len < Config.headerLen + Config.endMarkerLen)
    (hp : hdrParse (d.inp.readList 0 Config.headerLen) = .ok hdr) :
    ({ d with status := .running }.initLoop hdr : DecState).Inv where
  inWf := hi.inWf
  counted := rfl
  posLow := Nat.le_refl _
  lastPixel := rfl
  cacheLast := Cache.reflects_reset
  starting := fun h => by cases h
  looping := fun _ => ⟨rfl, Nat.not_lt.mp h2, by
    simp only [DecState.initLoop, DecState.endPos, Config.headerLen, Config.endMarkerLen] at *
    omega, hp⟩

/-- Ending a call keeps the decoder's invariant: it reads no status and no result register. -/
theorem DecState.Inv.ended {d d' : DecState} (hi : d.Inv) (h1 : d'.inp = d.inp)
    (h2 : d'.outcnt = d.outcnt) (h3 : d'.out = d.out) (h4 : d'.pos = d.pos) (h5 : d'.px = d.px)
    (h6 : d'.cache = d.cache) (h7 : d'.stage = .idle) : d'.Inv where
  inWf := h1 ▸ hi.inWf
  counted := by rw [h2, h3, hi.counted]
  posLow := h4 ▸ hi.posLow
  lastPixel := by rw [h5, h3, hi.lastPixel]
  cacheLast := by rw [h6, h3]; exact hi.cacheLast
  starting := fun h => by rw [h7] at h; cases h
  looping := fun h => by rw [h7] at h; cases h

theorem decStart_inv {s : State} (hi : s.dec.Inv) : (decStart s).dec.Inv := by
  by_cases h1 : s.dec.inp.len < Config.headerLen
  · rw [decStart_short h1]
    exact hi.ended rfl rfl rfl rfl rfl rfl rfl
  · cases hp : hdrParse (s.dec.inp.readList 0 Config.headerLen) with
    | error f =>
      rw [decStart_badMagic h1 hp]
      exact hi.ended rfl rfl rfl rfl rfl rfl rfl
    | ok hd =>
      by_cases h2 : s.dec.inp.len < Config.headerLen + Config.endMarkerLen
      · rw [decStart_noMarker h1 hp h2]
        exact hi.ended rfl rfl rfl rfl rfl rfl rfl
      · rw [decStart_loop h1 hp h2]
        exact hi.initLoop h2 hp

/-- DEC.START leaves the encoder alone. -/
theorem decStart_frame (s : State) : (decStart s).enc = s.enc ∧ (decStart s).turn = s.turn := by
  by_cases h1 : s.dec.inp.len < Config.headerLen
  · rw [decStart_short h1]; exact ⟨rfl, rfl⟩
  · cases hp : hdrParse (s.dec.inp.readList 0 Config.headerLen) with
    | error f => rw [decStart_badMagic h1 hp]; exact ⟨rfl, rfl⟩
    | ok hd =>
      by_cases h2 : s.dec.inp.len < Config.headerLen + Config.endMarkerLen
      · rw [decStart_noMarker h1 hp h2]; exact ⟨rfl, rfl⟩
      · rw [decStart_loop h1 hp h2]; exact ⟨rfl, rfl⟩

/-! ### Encoder -/

theorem take_succ_of_getElem? {α : Type} {l : List α} {k : Nat} {p : α} (h : l[k]? = some p) :
    l.take (k + 1) = l.take k ++ [p] := by
  rw [List.take_add_one, h]; rfl

theorem EncState.flushed_length {e : EncState} (h : e.ipx ≤ e.pix.length) :
    e.flushed.length = e.ipx - e.run.toNat := by
  simp [flushed]
  omega

/-- The bytes of a pending run: one exactly where one is pending. -/
theorem EncState.pendingBytes_length (e : EncState) :
    e.pendingBytes.length ≤ 1 ∧ (e.run.toNat ≠ 0 → e.pendingBytes.length = 1) ∧
      (e.run.toNat = 0 → e.pendingBytes.length = 0) := by
  unfold pendingBytes
  by_cases hz : e.run = 0
  · rw [if_pos hz, hz]; simp
  · have := run_toNat_pos hz
    rw [if_neg hz]
    exact ⟨by simp, by simp, by omega⟩

/-- The cache after the flush covers the pending run. -/
theorem EncState.testCache_reflects {e : EncState} (h : e.cache.Reflects e.flushed) :
    e.testCache.Reflects (e.flushed ++ List.replicate e.run.toNat e.prev) := by
  unfold testCache
  by_cases hz : e.run = 0
  · rw [if_pos hz, hz]; simpa using h
  · rw [if_neg hz]; exact h.update_replicate _ (run_toNat_pos hz)

/-- What stays of the encoder in a step on a pixel. -/
theorem encStepPixel_frame (cur : Pixel) (s : State) :
    (encStepPixel cur s).enc.stage = s.enc.stage ∧
      (encStepPixel cur s).enc.ipx = s.enc.ipx + 1 ∧
      (encStepPixel cur s).enc.pix = s.enc.pix ∧ (encStepPixel cur s).enc.cfg = s.enc.cfg ∧
      (encStepPixel cur s).enc.hdr = s.enc.hdr ∧
      (encStepPixel cur s).enc.status = s.enc.status ∧ (encStepPixel cur s).dec = s.dec ∧
      (encStepPixel cur s).turn = s.turn := by
  by_cases he : cur = s.enc.prev
  · rw [encStepPixel_same he]
    simp only [State.onEnc_enc]
    by_cases h61 : s.enc.run.toNat = 61
    · rw [EncState.extendRun_cap h61]; exact ⟨rfl, rfl, rfl, rfl, rfl, rfl, rfl, rfl⟩
    · rw [EncState.extendRun_below h61]; exact ⟨rfl, rfl, rfl, rfl, rfl, rfl, rfl, rfl⟩
  · rw [encStepPixel_differs he]; exact ⟨rfl, rfl, rfl, rfl, rfl, rfl, rfl, rfl⟩

/-- A step on a pixel keeps the encoder's invariant. -/
theorem encStepPixel_inv {s : State} {cur : Pixel} (h : s.AtPixel cur) (hi : s.enc.Inv) :
    (encStepPixel cur s).enc.Inv := by
  obtain ⟨hm, hs, hc⟩ := h
  have hlt : s.enc.ipx < s.enc.pix.length := (List.getElem?_eq_some_iff.mp hc).1
  obtain ⟨l1, l2, l3, l4, l5, l6⟩ := hi.looping hs
  have hrb := hi.runBound
  have hcap := hi.runCap
  have hfl := EncState.flushed_length (Nat.le_of_lt hlt)
  have htk := take_succ_of_getElem? hc
  rw [hi.pending] at htk
  simp only [Config.runMax, Config.headerLen] at *
  by_cases he : cur = s.enc.prev
  · rw [encStepPixel_same he]
    subst he
    have htk2 : s.enc.pix.take (s.enc.ipx + 1) =
        s.enc.flushed ++ List.replicate (s.enc.run.toNat + 1) s.enc.prev := by
      rw [htk, List.append_assoc, ← List.replicate_succ']
    by_cases h61 : s.enc.run.toNat = 61
    · have key : ({ s.enc.extendRun with ipx := s.enc.extendRun.ipx + 1 } : EncState) =
          { s.enc with run := 0, outb := s.enc.outb.emit [0xFD],
                       cache := s.enc.cache.update s.enc.prev, ipx := s.enc.ipx + 1 } := by
        rw [EncState.extendRun_cap h61]
      show EncState.Inv ({ s.enc.extendRun with ipx := s.enc.extendRun.ipx + 1 } : EncState)
      rw [key]
      have hfl' : (EncState.flushed { s.enc with
          run := 0, outb := s.enc.outb.emit [0xFD],
          cache := s.enc.cache.update s.enc.prev, ipx := s.enc.ipx + 1 }) =
          s.enc.flushed ++ List.replicate (s.enc.run.toNat + 1) s.enc.prev := by
        rw [← htk2]; rfl
      refine ⟨Memory.emit_wf hi.outWf _, by simp [Config.runMax], hlt, by simp, ?_, ?_, ?_,
        hi.starting, ?_⟩
      · rw [hfl']; show s.enc.pix.take (s.enc.ipx + 1) = _; rw [htk2]; simp
      · rw [hfl', getLastD_append_replicate _ _ _ (by omega)]
      · rw [hfl']; exact hi.cacheLast.update_replicate _ (by omega)
      · intro _
        refine ⟨l1, l2, l3, ?_, ?_, ?_⟩ <;> (try rw [hfl']) <;>
          simp [hfl, Config.headerLen, Config.runMax] <;> omega
    · have key : ({ s.enc.extendRun with ipx := s.enc.extendRun.ipx + 1 } : EncState) =
          { s.enc with run := s.enc.run + 1, ipx := s.enc.ipx + 1 } := by
        rw [EncState.extendRun_below h61]
      show EncState.Inv ({ s.enc.extendRun with ipx := s.enc.extendRun.ipx + 1 } : EncState)
      rw [key]
      have hr : (s.enc.run + 1).toNat = s.enc.run.toNat + 1 := by simp; omega
      have hfl' : (EncState.flushed { s.enc with run := s.enc.run + 1, ipx := s.enc.ipx + 1 }) =
          s.enc.flushed := by
        show s.enc.pix.take (s.enc.ipx + 1 - (s.enc.run + 1).toNat) = s.enc.pix.take _
        rw [hr]; congr 1; omega
      refine ⟨hi.outWf, ?_, hlt, ?_, ?_, ?_, ?_, hi.starting, ?_⟩
      · show (s.enc.run + 1).toNat < 62; omega
      · show (s.enc.run + 1).toNat ≤ s.enc.ipx + 1; omega
      · rw [hfl']
        show s.enc.pix.take (s.enc.ipx + 1) =
          s.enc.flushed ++ List.replicate (s.enc.run + 1).toNat s.enc.prev
        rw [hr]; exact htk2
      · rw [hfl']; exact hi.prevLast
      · rw [hfl']; exact hi.cacheLast
      · intro _; rw [hfl']; exact ⟨l1, l2, l3, l4, l5, l6⟩
  · rw [encStepPixel_differs he]
    generalize hop : s.enc.flushIfPending.chooseOp cur = op
    show EncState.Inv ({ s.enc with
      outb := (s.enc.outb.emit s.enc.pendingBytes).emit (encode (s.enc.flushIfPending.chooseOp cur))
      cache := s.enc.testCache.update cur
      prev := cur
      run := 0
      ipx := s.enc.ipx + 1 })
    rw [hop]
    have hfl' : (EncState.flushed { s.enc with
        outb := (s.enc.outb.emit s.enc.pendingBytes).emit (encode op)
        cache := s.enc.testCache.update cur
        prev := cur
        run := 0
        ipx := s.enc.ipx + 1 }) =
        s.enc.flushed ++ List.replicate s.enc.run.toNat s.enc.prev ++ [cur] := by
      rw [← htk]; rfl
    have hlen : 1 ≤ (encode op).length ∧ (encode op).length ≤ 5 := by cases op <;> simp [encode]
    have hpb := s.enc.pendingBytes_length
    have hcr := EncState.testCache_reflects hi.cacheLast
    refine ⟨Memory.emit_wf (Memory.emit_wf hi.outWf _) _, by simp [Config.runMax], hlt, by simp,
      ?_, ?_, ?_, hi.starting, ?_⟩
    · rw [hfl']; show s.enc.pix.take (s.enc.ipx + 1) = _; rw [htk]; simp
    · rw [hfl']; simp
    · rw [hfl']; exact hcr.update cur
    · intro _
      refine ⟨l1, l2, l3, ?_, ?_, ?_⟩ <;> (try rw [hfl']) <;>
        simp [hfl, Config.headerLen, Config.runMax] <;> omega

/-- ENC.FINISH keeps the encoder's invariant. -/
theorem encFinish_inv {s : State} (hi : s.enc.Inv) : (encFinish s).enc.Inv := by
  rw [encFinish_eq]
  have hpend := hi.pending
  have hcr := EncState.testCache_reflects hi.cacheLast
  rw [← hpend] at hcr
  refine ⟨Memory.emit_wf (Memory.emit_wf hi.outWf _) _, by simp [Config.runMax], hi.ipxBound,
    by simp, ?_, ?_, hcr, ?_, ?_⟩
  · show s.enc.pix.take s.enc.ipx = s.enc.pix.take s.enc.ipx ++ []; simp
  · show s.enc.prev = (s.enc.pix.take s.enc.ipx).getLastD _
    rw [hpend]
    by_cases hz : s.enc.run = 0
    · rw [hz]; simpa using hi.prevLast
    · exact (getLastD_append_replicate _ _ _ (EncState.run_toNat_pos hz)).symm
  · intro h; cases h
  · intro h; cases h

/-- ENC.START keeps the encoder's invariant, whether it goes on or refuses. -/
theorem encStart_inv {s : State} (hi : s.enc.Inv) : (encStart s).enc.Inv := by
  by_cases h : s.enc.pixLen = s.enc.cfg.imageSize
  · rw [encStart_go h]
    refine ⟨Memory.emit_wf Memory.empty_wf _, by simp [Config.runMax], by simp, by simp, ?_, ?_,
      Cache.reflects_reset, ?_, ?_⟩
    · simp [EncState.flushed]
    · simp [EncState.flushed]
    · intro h; cases h
    · intro _
      exact ⟨rfl, h, rfl, by simp [Config.headerLen], by simp [EncState.flushed],
        by simp [Config.headerLen]⟩
  · rw [encStart_refuse h]
    refine ⟨hi.outWf, hi.runCap, hi.ipxBound, hi.runBound, hi.pending, hi.prevLast, hi.cacheLast,
      ?_, ?_⟩ <;> intro h <;> cases h

/-- ENC.START leaves the decoder alone. -/
theorem encStart_frame (s : State) : (encStart s).dec = s.dec ∧ (encStart s).turn = s.turn := by
  by_cases h : s.enc.pixLen = s.enc.cfg.imageSize
  · rw [encStart_go h]; exact ⟨rfl, rfl⟩
  · rw [encStart_refuse h]; exact ⟨rfl, rfl⟩

end Sys2Proof.Machine
end

