-- ==== Sys2Proof/Laws/PerInstr.lean ====
section
/-! SUPPORT. One fact about every op as syntax: its bytes are as many as its kind has
(30_encoding.md R47). -/

namespace Sys2Proof.Laws.EncodedLength

/-- The bytes of the op are as many as its kind has. -/
def Statement (i : Instr) : Prop := (encode i).length = i.kind.length

theorem rgba (r g b a : Byte) : Statement (.rgba r g b a) := rfl
theorem rgb (r g b : Byte) : Statement (.rgb r g b) := rfl
theorem index (i : Slot) : Statement (.index i) := rfl
theorem diff (dr dg db : Int) : Statement (.diff dr dg db) := rfl
theorem luma (dg drg dbg : Int) : Statement (.luma dg drg dbg) := rfl
theorem run (n : Nat) : Statement (.run n) := rfl

end Sys2Proof.Laws.EncodedLength
end

