-- ==== Sys2Proof/Laws/Stream.lean ====
section
/-! SUPPORT. What a sequence of ops does to the decoder, and the ops behind the bytes an encoder
flushes: the pieces of the lock-step between the two engines (41_cache.md R79). -/

namespace Sys2Proof.Machine

/-- The decoder after a sequence of ops. -/
def decAfterOps (ops : List Instr) (d : DecState) : DecState :=
  ops.foldl (fun d i => decAfterOp i d) d

theorem execAll_eq (ops : List Instr) (s : State) :
    execAll ops s = .next (s.onDec (decAfterOps ops)) := by
  induction ops generalizing s with
  | nil => rfl
  | cons i is ih => rw [execAll, exec_eq]; exact ih _

theorem decAfterOps_append (a b : List Instr) (d : DecState) :
    decAfterOps (a ++ b) d = decAfterOps b (decAfterOps a d) := by
  simp [decAfterOps]

theorem encode_length (i : Instr) : (encode i).length = i.kind.length := by cases i <;> rfl

/-- What a sequence of ops keeps, and how far it advances. -/
theorem decAfterOps_frame (ops : List Instr) (d : DecState) :
    (decAfterOps ops d).inp = d.inp ∧ (decAfterOps ops d).hdr = d.hdr ∧
      (decAfterOps ops d).stage = d.stage ∧
      (decAfterOps ops d).pos = d.pos + (ops.flatMap fun i => encode i).length ∧
      (d.outcnt = d.out.length →
        (decAfterOps ops d).outcnt = (decAfterOps ops d).out.length) := by
  induction ops generalizing d with
  | nil => exact ⟨rfl, rfl, rfl, rfl, id⟩
  | cons i is ih =>
    obtain ⟨a, b, c, e, f⟩ := ih (decAfterOp i d)
    refine ⟨a, b, c, ?_, fun h => f (by simp [decAfterOp, h])⟩
    show (decAfterOps is (decAfterOp i d)).pos = _
    rw [e, List.flatMap_cons, List.length_append, encode_length]
    simp only [decAfterOp]
    omega

/-- What a sequence of ops makes of cache, pixel and output depends on those three alone. -/
theorem decAfterOps_congr (ops : List Instr) {d d' : DecState} (hc : d.cache = d'.cache)
    (hp : d.px = d'.px) (ho : d.out = d'.out) :
    (decAfterOps ops d).cache = (decAfterOps ops d').cache ∧
      (decAfterOps ops d).px = (decAfterOps ops d').px ∧
      (decAfterOps ops d).out = (decAfterOps ops d').out := by
  induction ops generalizing d d' with
  | nil => exact ⟨hc, hp, ho⟩
  | cons i is ih =>
    have hop : opPixel i d = opPixel i d' := by cases i <;> simp [opPixel, hc, hp]
    exact ih (by simp [decAfterOp, hop, hc]) (by simp [decAfterOp, hop])
      (by simp [decAfterOp, hop, ho])

/-- The bytes of a pending run are those of at most one RUN op, and a decoder in step with the
encoder takes them to the encoder's state after the flush. -/
theorem EncState.Inv.flush_ops {e : EncState} (hi : e.Inv) {d : DecState} (hc : d.cache = e.cache)
    (hp : d.px = e.prev) :
    ∃ ops : List Instr, (∀ i ∈ ops, i.wf = true) ∧ e.pendingBytes = ops.flatMap encode ∧
      (decAfterOps ops d).cache = e.testCache ∧ (decAfterOps ops d).px = e.prev ∧
      (decAfterOps ops d).out = d.out ++ List.replicate e.run.toNat e.prev := by
  by_cases hz : e.run = 0
  · exact ⟨[], by simp, by simp [EncState.pendingBytes, hz],
      by simp [EncState.testCache, hz, decAfterOps, hc], hp, by simp [hz, decAfterOps]⟩
  · have hpos := EncState.run_toNat_pos hz
    have hcap := hi.runCap
    refine ⟨[.run e.run.toNat], ?_, ?_, ?_, hp, ?_⟩
    · intro i hm
      rw [List.mem_singleton.mp hm]
      exact decide_eq_true ⟨hpos, Nat.le_of_lt hcap⟩
    · rw [EncState.pendingBytes, if_neg hz]; rfl
    · rw [EncState.testCache, if_neg hz]
      simp [decAfterOps, decAfterOp, opPixel, hc, hp]
    · simp [decAfterOps, decAfterOp, opPixel, opCount, hp]

end Sys2Proof.Machine
end

