-- ==== Sys2Proof/Tests/Slice0.lean ====
section
/-! SUPPORT. Tests. Every expected value is from the vectors of spec/95_test_vectors.md (named in the
theorem: V-D1 is `V_D1`), from 30_encoding.md, or worked out by hand from the rule cited. The second
half shows, for every statement with hypotheses, a concrete case that meets them. -/

namespace Sys2Proof.Tests

open Sys2Proof.Machine

/-! ### Well-formedness: the ill-formed terms are refused -/

theorem test_diff_red_range : (Instr.diff (-3) 0 0).wf = false ∧ (Instr.diff 2 0 0).wf = false ∧
    (Instr.diff (-2) 0 0).wf = true ∧ (Instr.diff 1 0 0).wf = true := by decide
theorem test_diff_green_range : (Instr.diff 0 (-3) 0).wf = false ∧ (Instr.diff 0 2 0).wf = false ∧
    (Instr.diff 0 (-2) 0).wf = true ∧ (Instr.diff 0 1 0).wf = true := by decide
theorem test_diff_blue_range : (Instr.diff 0 0 (-3)).wf = false ∧ (Instr.diff 0 0 2).wf = false ∧
    (Instr.diff 0 0 (-2)).wf = true ∧ (Instr.diff 0 0 1).wf = true := by decide
theorem test_luma_green_range : (Instr.luma (-33) 0 0).wf = false ∧
    (Instr.luma 32 0 0).wf = false ∧ (Instr.luma (-32) 0 0).wf = true ∧
    (Instr.luma 31 0 0).wf = true := by decide
theorem test_luma_red_range : (Instr.luma 0 (-9) 0).wf = false ∧ (Instr.luma 0 8 0).wf = false ∧
    (Instr.luma 0 (-8) 0).wf = true ∧ (Instr.luma 0 7 0).wf = true := by decide
theorem test_luma_blue_range : (Instr.luma 0 0 (-9)).wf = false ∧ (Instr.luma 0 0 8).wf = false ∧
    (Instr.luma 0 0 (-8)).wf = true ∧ (Instr.luma 0 0 7).wf = true := by decide
theorem test_run_range : (Instr.run 0).wf = false ∧ (Instr.run 63).wf = false ∧
    (Instr.run 1).wf = true ∧ (Instr.run 62).wf = true := by decide
theorem test_ill_formed_lines_have_no_encoding : assemble (.diff 2 0 0) = none ∧
    assemble (.luma 0 8 0) = none ∧ assemble (.run 63) = none ∧
    assemble (.run 14) = some [0xCD] := by decide

/-! ### Decoding: words written out bit by bit -/

/-- 30_encoding.md R49: tag 11111111, then four bytes (V-D1). -/
theorem test_decode_rgba :
    decode [0b11111111, 0b00010000, 0b00100000, 0b00110000, 0b01000000, 0b10101010] =
      .ok (.rgba 16 32 48 64, [0b10101010]) := rfl
/-- 30_encoding.md R50: tag 11111110, then three bytes (V-D3). -/
theorem test_decode_rgb :
    decode [0b11111110, 0b00010001, 0b00011110, 0b00110001] = .ok (.rgb 17 30 49, []) := rfl
/-- 30_encoding.md R51: 00, slot in six bits (V-X1, V-X2). -/
theorem test_decode_index : decode [0b00111111] = .ok (.index 63, []) ∧
    decode [0b00000000] = .ok (.index 0, []) := ⟨rfl, rfl⟩
/-- 30_encoding.md R52: 01, red 11, green 00, blue 11 (V-D14); 01, 00, 11, 11 (V-D15). -/
theorem test_decode_diff : decode [0b01110011] = .ok (.diff 1 (-2) 1, []) ∧
    decode [0b01001111] = .ok (.diff (-2) 1 1, []) := ⟨rfl, rfl⟩
/-- 30_encoding.md R53: 10, green 100000; red nibble 1010, blue nibble 1000 (V-D20); V-D21. -/
theorem test_decode_luma : decode [0b10100000, 0b10101000] = .ok (.luma 0 2 0, []) ∧
    decode [0b10100000, 0b10001010] = .ok (.luma 0 0 2, []) := ⟨rfl, rfl⟩
/-- 30_encoding.md R54: 11, stored length minus 1 (V-X7, V-X8). -/
theorem test_decode_run : decode [0b11000000] = .ok (.run 1, []) ∧
    decode [0b11111101] = .ok (.run 62, []) := ⟨rfl, rfl⟩
/-- Bytes that end too early are rejected by name. -/
theorem test_decode_cut_short : decode [] = .error .noLeadingByte ∧
    decode [0xFF, 1, 2, 3] = .error (.payloadMissing .rgba) ∧
    decode [0xFE, 1, 2] = .error (.payloadMissing .rgb) ∧
    decode [0x80] = .error (.payloadMissing .luma) := ⟨rfl, rfl, rfl, rfl⟩
/-- 30_encoding.md R57: the lines of the syntax as bytes (V-D14, V-D16, V-S4). -/
theorem test_encode : encode (.diff 1 (-2) 1) = [0x73] ∧ encode (.luma 5 (-1) 1) = [0xA5, 0x79] ∧
    encode (.run 14) = [0xCD] ∧ encode (.index 32) = [0x20] ∧
    encode (.rgb 17 30 49) = [0xFE, 0x11, 0x1E, 0x31] ∧
    encode (.rgba 16 32 48 64) = [0xFF, 0x10, 0x20, 0x30, 0x40] := by decide
/-- 30_encoding.md R57: the pseudo-line `HEADER 3, 2, 4, 0` (V-H1). -/
theorem test_headerLine : headerLine 3 2 4 0 =
    [0x71, 0x6F, 0x69, 0x66, 0, 0, 0, 3, 0, 0, 0, 2, 4, 0] := by decide
/-- 30_encoding.md R58: exactly one row of the table matches each leading byte, and it is the row of
the op dispatched to. -/
theorem test_opcode_table_is_a_partition : ∀ b : Byte,
    ((opcodeTable.filter fun row => row.matches b).map fun row => row.kind) = [dispatch b] := by
  decide
/-- Table words, the first byte in bits 7 to 0: `RGB` with 24 payload bits zero. -/
theorem test_decodeTableWord : decodeTableWord 8 0xFE = some (.rgb 0 0 0) ∧
    decodeTableWord 16 0x79A5 = some (.luma 5 (-1) 1) := ⟨rfl, rfl⟩

/-! ### Header, hash, pixel word -/

theorem test_V_H2 : hdrParse [0x71, 0x6F, 0x69, 0x66, 1, 2, 3, 4, 0xA0, 0xB0, 0xC0, 0xD0, 3, 1] =
    .ok ⟨0x01020304, 0xA0B0C0D0, false, true⟩ := rfl
theorem test_V_H2_image_size :
    Header.imageSize ⟨0x01020304, 0xA0B0C0D0, false, true⟩ = 45585781726999360 := by decide
theorem test_V_H4 : hdrSerialize ⟨0xFFFFFFFF, 0xFFFFFFFF, true, true⟩ =
    [0x71, 0x6F, 0x69, 0x66, 0xFF, 0xFF, 0xFF, 0xFF, 0xFF, 0xFF, 0xFF, 0xFF, 4, 1] := by decide
theorem test_V_H7 :
    hdrParse [0x51, 0x6F, 0x69, 0x66, 0, 0, 0, 1, 0, 0, 0, 1, 4, 0] =
      .error [0x51, 0x6F, 0x69, 0x66] := rfl
theorem test_hash : pixelHash ⟨1, 0, 0, 0⟩ = 3 ∧ pixelHash ⟨0, 1, 0, 0⟩ = 5 ∧
    pixelHash ⟨0, 0, 1, 0⟩ = 7 ∧ pixelHash ⟨0, 0, 0, 1⟩ = 11 ∧
    pixelHash ⟨254, 254, 254, 255⟩ = 23 := by decide
/-- 00_scope.md R2 and R6: the two names, and the constants that set widths and the hash. -/
theorem test_names_and_constants : Config.blockName = "hardqoi-core" ∧
    Config.opSetName = "QOI-OPS" ∧ Config.pixelBits = 32 ∧ Config.cacheSlots = 64 ∧
    Config.hashMul = (3, 5, 7, 11) := by decide
theorem test_pixel_word : Pixel.word ⟨16, 32, 48, 64⟩ = 0x10203040 := by decide
theorem test_status_codes : Status.running.code = 0 ∧ Status.doneOk.code = 1 ∧
    Status.errSizeMismatch.code = 2 ∧ Status.faultBadMagic.code = 3 ∧
    Status.faultBadEndMarker.code = 4 ∧ Status.faultShortInput.code = 5 ∧
    Status.refusedEncPrecondition.code = 6 := by decide

/-! ### Small states -/

/-- The 14 header bytes of a 1 by 1 image. -/
def header11 : List Byte := [0x71, 0x6F, 0x69, 0x66, 0, 0, 0, 1, 0, 0, 0, 1, 4, 0]

/-- The end marker's bytes. -/
def marker : List Byte := [0, 0, 0, 0, 0, 0, 0, 1]

/-- The decoder holds the bytes and stands in the stage. -/
def decoderAt (stage : Stage) (bytes : List Byte) : State :=
  { State.reset with
    dec := { DecState.reset with inp := Memory.ofBytes bytes, stage := stage } }

/-- The decoder in its loop, the op bytes at 14, with `px` and a cache after some updates. -/
def opAt (px : Pixel) (seen : List Pixel) (ops : List Byte) : State :=
  (decoderAt .loop (header11 ++ ops ++ marker)).onDec fun d =>
    { d with px := px, cache := seen.foldl Cache.update d.cache }

/-- The encoder before one pixel, with `prev`, `run` and a cache after some updates. -/
def pixelAt (prev cur : Pixel) (seen : List Pixel) (run : BitVec 6) : State :=
  { State.reset with
    enc := { EncState.reset with
      pix := [cur], prev := prev, run := run, stage := .loop,
      cache := seen.foldl Cache.update Cache.reset } }

/-- The state a step answers. -/
def next? (s : State) : Option State :=
  match step s with
  | .next t => some t
  | .fault _ => none
  | .refused _ => none

/-- Of a decoder step: `px`, the number of pixels appended, `pos`, one slot. -/
def decResult (s : State) (slot : Slot) : Option (Pixel × Nat × Nat × Pixel) :=
  (next? s).map fun t => (t.dec.px, t.dec.outcnt, t.dec.pos, t.dec.cache.read slot)

/-- Of an encoder step: the bytes emitted, `run`, `prev`. -/
def encResult (s : State) : Option (List Byte × BitVec 6 × Pixel) :=
  (next? s).map fun t => (t.enc.outb.bytes, t.enc.run, t.enc.prev)

/-! ### One step of each op -/

theorem test_V_D1 : decResult (opAt ⟨0, 0, 0, 255⟩ [] [0xFF, 0x10, 0x20, 0x30, 0x40]) 32 =
    some (⟨16, 32, 48, 64⟩, 1, 19, ⟨16, 32, 48, 64⟩) := by decide
theorem test_V_D3 : decResult (opAt ⟨16, 32, 48, 64⟩ [] [0xFE, 0x11, 0x1E, 0x31]) 32 =
    some (⟨17, 30, 49, 64⟩, 1, 18, ⟨17, 30, 49, 64⟩) := by decide
theorem test_V_D6 : decResult (opAt ⟨1, 2, 3, 4⟩ [⟨17, 30, 49, 64⟩] [0x20]) 32 =
    some (⟨17, 30, 49, 64⟩, 1, 15, ⟨17, 30, 49, 64⟩) := by decide
/-- An empty slot reads zero, and the write-back goes to slot 0. -/
theorem test_V_D7 : decResult (opAt ⟨64, 0, 0, 0⟩ [⟨64, 0, 0, 0⟩] [0x05]) 0 =
    some (⟨0, 0, 0, 0⟩, 1, 15, ⟨0, 0, 0, 0⟩) := by decide
theorem test_V_D11 : decResult (opAt ⟨1, 0, 255, 9⟩ [] [0x40]) 1 =
    some (⟨255, 254, 253, 9⟩, 1, 15, ⟨255, 254, 253, 9⟩) := by decide
theorem test_V_D14 : decResult (opAt ⟨10, 10, 10, 255⟩ [] [0x73]) 11 =
    some (⟨11, 8, 11, 255⟩, 1, 15, ⟨11, 8, 11, 255⟩) := by decide
theorem test_V_D16 : decResult (opAt ⟨17, 30, 50, 64⟩ [] [0xA5, 0x79]) 54 =
    some (⟨21, 35, 56, 64⟩, 1, 16, ⟨21, 35, 56, 64⟩) := by decide
theorem test_V_D18 : decResult (opAt ⟨10, 10, 10, 255⟩ [] [0x80, 0x00]) 27 =
    some (⟨226, 234, 226, 255⟩, 1, 16, ⟨226, 234, 226, 255⟩) := by decide
theorem test_V_D23 : decResult (opAt ⟨0, 0, 0, 255⟩ [] [0xFD]) 53 =
    some (⟨0, 0, 0, 255⟩, 62, 15, ⟨0, 0, 0, 255⟩) := by decide
/-- Exactly 2 pixels, not 3 (70_reset_and_hazards.md R150). -/
theorem test_V_D24 : decResult (opAt ⟨0, 0, 0, 255⟩ [] [0xC1]) 53 =
    some (⟨0, 0, 0, 255⟩, 2, 15, ⟨0, 0, 0, 255⟩) := by decide

/-! ### START and FINISH of a decode -/

theorem test_V_E9_short : (next? (decoderAt .start (header11.take 13))).map (fun t => t.dec.status) =
    some .faultShortInput := by decide
theorem test_V_E1_magic :
    (next? (decoderAt .start ([0x71, 0x6F, 0x69, 0x67] ++ header11.drop 4 ++ [0xC0] ++ marker))).map
      (fun t => (t.dec.status, t.dec.diagFound, t.dec.outcnt)) =
      some (.faultBadMagic, [0x71, 0x6F, 0x69, 0x67], 0) := by decide
theorem test_V_E5_no_marker : (next? (decoderAt .start (header11 ++ marker.tail))).map
      (fun t => (t.dec.status, t.dec.diagFound)) = some (.faultBadEndMarker, [0, 0, 0, 0, 0, 0, 1]) := by
  decide
theorem test_V_E6_empty : (next? (decoderAt .loop (header11 ++ marker))).map
      (fun t => t.dec.status) = some .doneOk := by decide
theorem test_V_E7_count :
    (next? ((opAt ⟨0, 0, 0, 255⟩ [] [0xC1]).onDec fun d =>
      { d with pos := 15, outcnt := 2, hdr := ⟨1, 1, true, false⟩ })).map
      (fun t => t.decodeResult) = some (some (.sizeMismatch 2 1)) := by decide
/-- V-E4: an op fetched before `END_POS` that ran past it. -/
theorem test_V_E4_overrun :
    (next? ((opAt ⟨0, 0, 0, 255⟩ [] [0xC0, 0xFF]).onDec fun d => { d with pos := 20 })).map
      (fun t => t.dec.status) = some .faultBadEndMarker := by decide

/-! ### One step of the encoder -/

theorem test_V_N1 : encResult (pixelAt ⟨10, 10, 10, 255⟩ ⟨11, 8, 11, 255⟩ [⟨10, 10, 10, 255⟩] 0) =
    some ([0x73], 0, ⟨11, 8, 11, 255⟩) := by decide
theorem test_V_N6 : encResult (pixelAt ⟨255, 255, 255, 255⟩ ⟨0, 0, 0, 255⟩ [] 0) =
    some ([0x7F], 0, ⟨0, 0, 0, 255⟩) := by decide
theorem test_V_N5 : encResult (pixelAt ⟨10, 10, 10, 255⟩ ⟨7, 10, 10, 255⟩ [] 0) =
    some ([0xA0, 0x58], 0, ⟨7, 10, 10, 255⟩) := by decide
theorem test_V_N14 : encResult (pixelAt ⟨100, 100, 100, 255⟩ ⟨91, 100, 100, 255⟩ [] 0) =
    some ([0xFE, 0x5B, 0x64, 0x64], 0, ⟨91, 100, 100, 255⟩) := by decide
theorem test_V_N17 : encResult (pixelAt ⟨100, 100, 100, 255⟩ ⟨101, 100, 100, 254⟩ [] 0) =
    some ([0xFF, 0x65, 0x64, 0x64, 0xFE], 0, ⟨101, 100, 100, 254⟩) := by decide
theorem test_V_N18 : encResult (pixelAt ⟨11, 10, 10, 255⟩ ⟨10, 10, 10, 255⟩ [⟨10, 10, 10, 255⟩] 0) =
    some ([0x0B], 0, ⟨10, 10, 10, 255⟩) := by decide
theorem test_V_N22 : encResult (pixelAt ⟨10, 10, 10, 255⟩ ⟨10, 10, 10, 255⟩ [⟨10, 10, 10, 255⟩] 0) =
    some ([], 1, ⟨10, 10, 10, 255⟩) := by decide
theorem test_V_N23 : encResult (pixelAt ⟨10, 10, 10, 255⟩ ⟨11, 10, 10, 255⟩ [] 3) =
    some ([0xC2, 0x7A], 0, ⟨11, 10, 10, 255⟩) := by decide
/-- V-R3: the 62nd equal pixel flushes the run. -/
theorem test_V_R3 : encResult (pixelAt ⟨0, 0, 0, 255⟩ ⟨0, 0, 0, 255⟩ [] 61) =
    some ([0xFD], 0, ⟨0, 0, 0, 255⟩) := by decide

/-- An encode handed over, ENC.START next. -/
def encoderStart (pix : List Pixel) (cfg : Header) : State :=
  { State.reset with enc := { EncState.reset with pix := pix, cfg := cfg, hdr := cfg, stage := .start } }

theorem test_V_E17_refused :
    (next? (encoderStart [⟨1, 2, 3, 4⟩, ⟨1, 2, 3, 4⟩, ⟨1, 2, 3, 4⟩] ⟨2, 2, true, false⟩)).map
      (fun t => (t.enc.status, t.enc.outb)) = some (.refusedEncPrecondition, Memory.empty) := by decide
/-- V-R1: the pending run, then the end marker. -/
theorem test_V_R1_finish :
    (next? ((pixelAt ⟨0, 0, 0, 255⟩ ⟨0, 0, 0, 255⟩ [] 1).onEnc fun e => { e with ipx := 1 })).map
      (fun t => t.encodeResult) = some (some [0xC0, 0, 0, 0, 0, 0, 0, 0, 1]) := by decide

/-! ### Memory and the host's harness -/

theorem test_memory_reset_wf : State.reset.dec.inp.wf = true ∧ State.reset.enc.outb.wf = true := by
  decide
theorem test_writing_the_unlisted_byte_removes_the_cell :
    ((Memory.ofBytes [1, 2]).write 0 0).cells = [(1, 2)] ∧
      ((Memory.ofBytes [1, 2]).write 0 0).bytes = [0, 2] := by decide
theorem test_withFetchWord_runs_the_word :
    (next? (State.reset.withFetchWord 8 0x7F)).map (fun t => (t.dec.px, t.dec.pos)) =
      some (⟨1, 1, 1, 255⟩, 15) := by decide
/-- With no call in progress the block is idle. -/
theorem test_reset_is_idle : next? State.reset = some State.reset := by decide

/-! ### Witnesses: the hypotheses of the statements are met -/

/-- `opAt` with at most five op bytes of any kind stands before an op. -/
theorem atOp {px : Pixel} {seen : List Pixel} {ops : List Byte} (h : ops ≠ []) :
    (opAt px seen ops).AtOp := by
  refine ⟨rfl, rfl, ?_⟩
  have : 0 < ops.length := List.length_pos_iff.mpr h
  show 14 < (Memory.ofBytes (header11 ++ ops ++ marker)).len - 8
  simp [header11, marker]
  omega

/-- EveryOpWithItsPayloadDecodes, LeadingByteSelectsTheOp: every row, at the ends of its range. -/
theorem test_witness_leading_bytes :
    dispatch 0x00 = .index ∧ dispatch 0x3F = .index ∧ dispatch 0x40 = .diff ∧
      dispatch 0x7F = .diff ∧ dispatch 0x80 = .luma ∧ dispatch 0xBF = .luma ∧
      dispatch 0xC0 = .run ∧ dispatch 0xFD = .run ∧ dispatch 0xFE = .rgb ∧ dispatch 0xFF = .rgba ∧
      (dispatch 0xFF).length ≤ [1, 2, 3, 4].length + 1 ∧ (dispatch 0x3F).length ≤ 0 + 1 := by decide

/-- DecodeOfEncodeIsIdentity: a well-formed term of every op, at a corner. -/
theorem test_witness_well_formed :
    (Instr.rgba 0 255 0 255).wf = true ∧ (Instr.rgb 255 0 255).wf = true ∧
      (Instr.index 63).wf = true ∧ (Instr.diff (-2) 1 (-2)).wf = true ∧
      (Instr.luma 31 (-8) 7).wf = true ∧ (Instr.run 62).wf = true := by decide

/-- EncodeOfDecodeIsIdentity: bytes that decode. -/
theorem test_witness_decodes : decode [0xBF, 0xFF, 9] = .ok (.luma 31 7 7, [9]) := rfl

/-- StepRunsTheDecodedOp, RunningDecoderReadsInsideIn, OpAdvancesPosByItsLength: the last op of a
stream, one byte before `END_POS`, whose payload lies in the marker (V-E4). -/
theorem test_witness_step_runs :
    (opAt ⟨0, 0, 0, 255⟩ [] [0xFF]).AtOp ∧
      decode (opAt ⟨0, 0, 0, 255⟩ [] [0xFF]).dec.fetchBytes = .ok (.rgba 0 0 0 0, []) ∧
      (opAt ⟨0, 0, 0, 255⟩ [] [0xFF]).dec.inp.read? 14 = some 0xFF ∧
      ∃ t, step (opAt ⟨0, 0, 0, 255⟩ [] [0xFF]) = .next t :=
  ⟨atOp (by decide), rfl, rfl, _, rfl⟩

/-- The second clauses of the six op statements, at ends of the operand ranges. -/
theorem test_witness_rgba_bytes : (opAt ⟨0, 0, 0, 255⟩ [] [0xFF, 0, 255, 0, 255]).AtOp ∧
    (opAt ⟨0, 0, 0, 255⟩ [] [0xFF, 0, 255, 0, 255]).dec.inp.readList 14 5 = [0xFF, 0, 255, 0, 255] :=
  ⟨atOp (by decide), rfl⟩
theorem test_witness_rgb_bytes : (opAt ⟨0, 0, 0, 255⟩ [] [0xFE, 0, 255, 0]).AtOp ∧
    (opAt ⟨0, 0, 0, 255⟩ [] [0xFE, 0, 255, 0]).dec.inp.readList 14 4 = [0xFE, 0, 255, 0] :=
  ⟨atOp (by decide), rfl⟩
theorem test_witness_index_bytes : (opAt ⟨0, 0, 0, 255⟩ [] [0x3F]).AtOp ∧
    (opAt ⟨0, 0, 0, 255⟩ [] [0x3F]).dec.inp.readList 14 1 = [BitVec.ofNat 8 (63 : Slot).val] :=
  ⟨atOp (by decide), rfl⟩
theorem test_witness_diff_bytes : (opAt ⟨0, 0, 0, 255⟩ [] [0x4F]).AtOp ∧
    (opAt ⟨0, 0, 0, 255⟩ [] [0x4F]).dec.inp.readList 14 1 =
      [BitVec.ofNat 8 (0x40 + 0 * 16 + 3 * 4 + 3)] :=
  ⟨atOp (by decide), rfl⟩
theorem test_witness_luma_bytes : (opAt ⟨0, 0, 0, 255⟩ [] [0xBF, 0x0F]).AtOp ∧
    (opAt ⟨0, 0, 0, 255⟩ [] [0xBF, 0x0F]).dec.inp.readList 14 2 =
      [BitVec.ofNat 8 (0x80 + 63), BitVec.ofNat 8 (0 * 16 + 15)] :=
  ⟨atOp (by decide), rfl⟩
theorem test_witness_run_bytes : (opAt ⟨0, 0, 0, 255⟩ [] [0xFD]).AtOp ∧
    (opAt ⟨0, 0, 0, 255⟩ [] [0xFD]).dec.inp.readList 14 1 = [BitVec.ofNat 8 (0xC0 + 61)] :=
  ⟨atOp (by decide), rfl⟩

/-- CacheUpdateWritesOnlyItsSlot: another slot. -/
theorem test_witness_other_slot : (52 : Slot) ≠ pixelHash ⟨0, 0, 0, 255⟩ := by decide

/-- HeaderParseReadsTheFields: a good magic, and a magic wrong in its last byte alone. -/
theorem test_witness_magic : header11.take 4 = [0x71, 0x6F, 0x69, 0x66] ∧
    ¬ ((0x71 : Byte) = 0x71 ∧ (0x6F : Byte) = 0x6F ∧ (0x69 : Byte) = 0x69 ∧ (0x67 : Byte) = 0x66) := by
  decide

/-- HeaderSerializeOfParseOnCanonicalBytes. -/
theorem test_witness_canonical : header11.length = 14 ∧
    hdrParse header11 = .ok ⟨1, 1, true, false⟩ ∧ header11[12]? = some 4 ∧ header11[13]? = some 0 :=
  ⟨rfl, rfl, rfl, rfl⟩

/-- DecodeStartChecksInOrder: 13 bytes, a bad magic in 14, 21 bytes and 22 bytes. -/
theorem test_witness_decode_start :
    (decoderAt .start (header11.take 13)).AtDecStart ∧
      (decoderAt .start (header11.take 13)).dec.inp.len < 14 ∧
      (decoderAt .start (0x51 :: header11.tail)).AtDecStart ∧
      (decoderAt .start (0x51 :: header11.tail)).dec.inp.len = 14 ∧
      (decoderAt .start (0x51 :: header11.tail)).dec.inp.readList 0 4 ≠ [0x71, 0x6F, 0x69, 0x66] ∧
      (decoderAt .start (header11 ++ marker.tail)).AtDecStart ∧
      (decoderAt .start (header11 ++ marker.tail)).dec.inp.len = 21 ∧
      (decoderAt .start (header11 ++ marker)).AtDecStart ∧
      (decoderAt .start (header11 ++ marker)).dec.inp.len = 22 :=
  ⟨⟨rfl, rfl⟩, by decide, ⟨rfl, rfl⟩, rfl, by decide, ⟨rfl, rfl⟩, rfl, ⟨rfl, rfl⟩, rfl⟩

/-- BadMagicIsReportedBeforeAnyPixel, EveryDecodeEnds: 14 bytes, the first wrong. -/
theorem test_witness_bad_magic : State.reset.DecFirst ∧
    State.reset.startDecode (0x51 :: header11.tail) =
      .next (decoderAt .start (0x51 :: header11.tail)) ∧
    14 ≤ (0x51 :: header11.tail).length ∧
    (0x51 :: header11.tail).take 4 ≠ [0x71, 0x6F, 0x69, 0x66] :=
  ⟨.inl rfl, rfl, by decide, by decide⟩

/-- The decoder past its last op, having counted `n` pixels. -/
def finishAt (pos n : Nat) (bytes : List Byte) : State :=
  (decoderAt .loop bytes).onDec fun d =>
    { d with pos := pos, outcnt := n, hdr := ⟨1, 1, true, false⟩ }

/-- DecodeFinishChecksInOrder, SizeMismatchCarriesBothCounts: overrun, wrong marker, count below and
above, and a good end. -/
theorem test_witness_decode_finish :
    ((finishAt 20 2 (header11 ++ [0xC0, 0xFF] ++ marker)).AtDecFinish ∧
      (finishAt 20 2 (header11 ++ [0xC0, 0xFF] ++ marker)).dec.endPos = 16) ∧
    ((finishAt 14 0 (header11 ++ List.replicate 8 0)).AtDecFinish ∧
      (finishAt 14 0 (header11 ++ List.replicate 8 0)).dec.inp.readList 14 8 ≠ marker) ∧
    ((finishAt 14 0 (header11 ++ marker)).AtDecFinish ∧
      (finishAt 14 0 (header11 ++ marker)).dec.inp.readList 14 8 = marker) ∧
    (finishAt 14 2 (header11 ++ marker)).AtDecFinish ∧
    (finishAt 14 1 (header11 ++ marker)).AtDecFinish :=
  ⟨⟨⟨rfl, rfl, by decide⟩, rfl⟩, ⟨⟨rfl, rfl, by decide⟩, by decide⟩, ⟨⟨rfl, rfl, by decide⟩, rfl⟩,
    ⟨rfl, rfl, by decide⟩, ⟨rfl, rfl, by decide⟩⟩

/-- RaiseWritesStatusAndResultsOnly: a cause of each engine. -/
theorem test_witness_causes : (Cause.badMagic []).engine = .dec ∧ Cause.encPrecondition.engine = .enc :=
  ⟨rfl, rfl⟩

/-- EncodeStartEmitsTheHeaderOrRefuses: one pixel too few, and the right number. -/
theorem test_witness_encode_start :
    ((encoderStart [] ⟨1, 1, true, false⟩).AtEncStart ∧
      (encoderStart [] ⟨1, 1, true, false⟩).enc.pix.length ≠ 1 * 1) ∧
    (encoderStart [⟨1, 2, 3, 4⟩] ⟨1, 1, true, false⟩).AtEncStart ∧
      (encoderStart [⟨1, 2, 3, 4⟩] ⟨1, 1, true, false⟩).enc.pix.length = 1 * 1 :=
  ⟨⟨⟨rfl, rfl⟩, by decide⟩, ⟨rfl, rfl⟩, rfl⟩

/-- Before a pixel the encoder stands at it, with `OUTB` in canonical form. -/
theorem atPixel {prev cur : Pixel} {seen : List Pixel} {run : BitVec 6} :
    (pixelAt prev cur seen run).AtPixel cur ∧ (pixelAt prev cur seen run).enc.outb.wf = true :=
  ⟨⟨rfl, rfl, rfl⟩, rfl⟩

/-- EqualPixelExtendsTheRun: at 60 and at 61. -/
theorem test_witness_equal_pixel :
    (pixelAt ⟨0, 0, 0, 255⟩ ⟨0, 0, 0, 255⟩ [] 61).AtPixel ⟨0, 0, 0, 255⟩ ∧
      (pixelAt ⟨0, 0, 0, 255⟩ ⟨0, 0, 0, 255⟩ [] 61).enc.run.toNat = 61 ∧
      (pixelAt ⟨0, 0, 0, 255⟩ ⟨0, 0, 0, 255⟩ [] 60).enc.run.toNat ≤ 61 ∧
      (pixelAt ⟨0, 0, 0, 255⟩ ⟨0, 0, 0, 255⟩ [] 61).enc.outb.wf = true :=
  ⟨atPixel.1, rfl, by decide, rfl⟩

/-- CachedPixelIsEmittedAsIndex (V-N18), with a run pending too. -/
theorem test_witness_index_choice :
    (pixelAt ⟨11, 10, 10, 255⟩ ⟨10, 10, 10, 255⟩ [⟨10, 10, 10, 255⟩] 5).AtPixel ⟨10, 10, 10, 255⟩ ∧
      (⟨10, 10, 10, 255⟩ : Pixel) ≠ ⟨11, 10, 10, 255⟩ ∧
      (pixelAt ⟨11, 10, 10, 255⟩ ⟨10, 10, 10, 255⟩ [⟨10, 10, 10, 255⟩] 5).enc.testCache.read
        (pixelHash ⟨10, 10, 10, 255⟩) = ⟨10, 10, 10, 255⟩ :=
  ⟨atPixel.1, by decide, by decide⟩

/-- SmallDeltaIsEmittedAsDiff: the lowest corner (V-N3). -/
theorem test_witness_diff_choice :
    (pixelAt ⟨10, 10, 10, 255⟩ ⟨8, 8, 8, 255⟩ [] 0).AtPixel ⟨8, 8, 8, 255⟩ ∧
      (⟨8, 8, 8, 255⟩ : Pixel) ≠ ⟨10, 10, 10, 255⟩ ∧
      (pixelAt ⟨10, 10, 10, 255⟩ ⟨8, 8, 8, 255⟩ [] 0).enc.testCache.read
        (pixelHash ⟨8, 8, 8, 255⟩) ≠ ⟨8, 8, 8, 255⟩ ∧
      (delta ⟨8, 8, 8, 255⟩ ⟨10, 10, 10, 255⟩).fitDiff :=
  ⟨atPixel.1, by decide, by decide, by decide⟩

/-- MediumDeltaIsEmittedAsLuma: the lowest corner (V-N10). -/
theorem test_witness_luma_choice :
    (pixelAt ⟨100, 100, 100, 255⟩ ⟨60, 68, 60, 255⟩ [] 0).AtPixel ⟨60, 68, 60, 255⟩ ∧
      (⟨60, 68, 60, 255⟩ : Pixel) ≠ ⟨100, 100, 100, 255⟩ ∧
      (pixelAt ⟨100, 100, 100, 255⟩ ⟨60, 68, 60, 255⟩ [] 0).enc.testCache.read
        (pixelHash ⟨60, 68, 60, 255⟩) ≠ ⟨60, 68, 60, 255⟩ ∧
      ¬ (delta ⟨60, 68, 60, 255⟩ ⟨100, 100, 100, 255⟩).fitDiff ∧
      (delta ⟨60, 68, 60, 255⟩ ⟨100, 100, 100, 255⟩).fitLuma :=
  ⟨atPixel.1, by decide, by decide, by decide, by decide⟩

/-- LargeDeltaSameAlphaIsEmittedAsRgb: just above the LUMA range (V-N13). -/
theorem test_witness_rgb_choice :
    (pixelAt ⟨100, 100, 100, 255⟩ ⟨108, 100, 100, 255⟩ [] 0).AtPixel ⟨108, 100, 100, 255⟩ ∧
      (⟨108, 100, 100, 255⟩ : Pixel) ≠ ⟨100, 100, 100, 255⟩ ∧
      (pixelAt ⟨100, 100, 100, 255⟩ ⟨108, 100, 100, 255⟩ [] 0).enc.testCache.read
        (pixelHash ⟨108, 100, 100, 255⟩) ≠ ⟨108, 100, 100, 255⟩ ∧
      ¬ (delta ⟨108, 100, 100, 255⟩ ⟨100, 100, 100, 255⟩).fitDiff ∧
      ¬ (delta ⟨108, 100, 100, 255⟩ ⟨100, 100, 100, 255⟩).fitLuma :=
  ⟨atPixel.1, by decide, by decide, by decide, by decide⟩

/-- ChangedAlphaIsEmittedAsRgba: alpha changed by 1 (V-N17). -/
theorem test_witness_rgba_choice :
    (pixelAt ⟨100, 100, 100, 255⟩ ⟨101, 100, 100, 254⟩ [] 0).AtPixel ⟨101, 100, 100, 254⟩ ∧
      (⟨101, 100, 100, 254⟩ : Pixel) ≠ ⟨100, 100, 100, 255⟩ ∧
      (pixelAt ⟨100, 100, 100, 255⟩ ⟨101, 100, 100, 254⟩ [] 0).enc.testCache.read
        (pixelHash ⟨101, 100, 100, 254⟩) ≠ ⟨101, 100, 100, 254⟩ ∧
      (254 : Byte) ≠ 255 :=
  ⟨atPixel.1, by decide, by decide, by decide⟩

/-- EncodeFinishFlushesThenMarks: with a run pending. -/
theorem test_witness_encode_finish :
    ((pixelAt ⟨0, 0, 0, 255⟩ ⟨0, 0, 0, 255⟩ [] 1).onEnc fun e => { e with ipx := 1 }).AtEncFinish ∧
      ((pixelAt ⟨0, 0, 0, 255⟩ ⟨0, 0, 0, 255⟩ [] 1).onEnc fun e =>
        { e with ipx := 1 }).enc.outb.wf = true :=
  ⟨⟨rfl, rfl, by decide⟩, rfl⟩

/-- A decode handed over meets the decoder's invariant, whatever its bytes. -/
theorem decoderAt_inv (bytes : List Byte) : (decoderAt .start bytes).dec.Inv :=
  ⟨Memory.ofBytes_wf bytes, rfl, Nat.le_refl _, rfl, Cache.reflects_reset, fun _ => rfl,
    fun h => by cases h⟩

/-- An encode handed over meets the encoder's invariant, whatever its arguments. -/
theorem encoderStart_inv (pix : List Pixel) (cfg : Header) : (encoderStart pix cfg).enc.Inv :=
  ⟨rfl, (by decide : (0 : BitVec 6).toNat < Config.runMax), Nat.zero_le _, Nat.zero_le _,
    by simp [encoderStart, EncState.flushed, EncState.reset], by simp [encoderStart, EncState.flushed, EncState.reset],
    Cache.reflects_reset, fun _ => rfl, fun h => by cases h⟩

/-- Both engines in the middle of their work: the decoder before a RUN op, the encoder after
ENC.START with one pixel to go. -/
def bothBusy (turn : Engine) : State :=
  ⟨(decStart (decoderAt .start (header11 ++ [0xFD] ++ marker))).dec,
    (encStart (encoderStart [⟨1, 2, 3, 4⟩] ⟨1, 1, true, false⟩)).enc, turn⟩

theorem bothBusy_inv (turn : Engine) : (bothBusy turn).Inv :=
  ⟨decStart_inv (decoderAt_inv _), encStart_inv (encoderStart_inv _ _)⟩

/-- StepKeepsTheInvariant, HostMovesKeepTheInvariant, StepNeverWritesTheCallArguments,
OutputsAreAppendOnly, EnginesDoNotInterfere: a step of each engine from its loop. -/
theorem test_witness_invariant_step :
    (bothBusy .dec).Inv ∧ (bothBusy .enc).Inv ∧ (bothBusy .dec).dec.stage = .loop ∧
      (bothBusy .enc).enc.stage = .loop ∧ (bothBusy .dec).enc.outb.wf = true ∧
      (∃ t, step (bothBusy .dec) = .next t ∧ t.dec.outcnt = 62) ∧
      (∃ t, step (bothBusy .enc) = .next t ∧ t.enc.ipx = 1) ∧
      ∃ t, decMove (bothBusy .enc) = .next t ∧ t.dec.outcnt = 62 :=
  ⟨bothBusy_inv _, bothBusy_inv _, by decide, by decide, by decide, ⟨_, rfl, by decide⟩,
    ⟨_, rfl, by decide⟩, ⟨_, rfl, by decide⟩⟩

theorem test_witness_host_moves :
    (∃ t, (decoderAt .idle []).startDecode [1, 2, 3] = .next t) ∧
      ∃ t, (decoderAt .idle []).startEncode [⟨1, 2, 3, 4⟩] ⟨1, 1, true, false⟩ = .next t :=
  ⟨⟨_, rfl⟩, ⟨_, rfl⟩⟩

/-- SpacesThatReadAlikeAreEqual: two canonical spaces made in different ways, and two that differ. -/
theorem test_witness_spaces :
    ((Memory.ofBytes [0, 5]).write 1 0).wf = true ∧ (Memory.ofBytes [0, 0]).wf = true ∧
      ((Memory.ofBytes [0, 5]).write 1 0) = Memory.ofBytes [0, 0] ∧
      (Memory.ofBytes [0, 5]).read? 1 ≠ (Memory.ofBytes [0, 0]).read? 1 := by decide

/-- EndedCallStaysUntilTheHostStartsTheNext: one engine idle, the other stepping. -/
theorem test_witness_ended_call :
    (encoderStart [⟨1, 2, 3, 4⟩] ⟨1, 1, true, false⟩).DecIdle ∧
      (∃ t, step (encoderStart [⟨1, 2, 3, 4⟩] ⟨1, 1, true, false⟩) = .next t) ∧
      (opAt ⟨0, 0, 0, 255⟩ [] [0xC1]).EncIdle ∧
      ∃ t, step (opAt ⟨0, 0, 0, 255⟩ [] [0xC1]) = .next t :=
  ⟨rfl, ⟨_, rfl⟩, rfl, ⟨_, rfl⟩⟩

/-- NothingSurvivesIntoTheNextCall: a call after another, and the first call. -/
theorem test_witness_next_call :
    (∃ t, ((finishAt 14 2 []).onDec fun d => { d with stage := .idle }).startDecode [7] = .next t ∧
        t.dec.outcnt = 0) ∧
      (∃ t, State.reset.startDecode [7] = .next t) ∧
      ∃ t, State.reset.startEncode [] ⟨0, 0, false, false⟩ = .next t :=
  ⟨⟨_, rfl, rfl⟩, ⟨_, rfl⟩, ⟨_, rfl⟩⟩

/-- HostStartsACallOnlyOnAnIdleEngine: each engine idle and busy. -/
theorem test_witness_idle_and_busy : State.reset.DecIdle ∧ State.reset.EncIdle ∧
    ¬ (bothBusy .dec).DecIdle ∧ ¬ (bothBusy .dec).EncIdle := by
  refine ⟨rfl, rfl, ?_, ?_⟩ <;> intro h <;> cases h

/-- EveryEncodeEndsWithinItsBounds, DecodeOfEncodedImageGivesItBack: a 2 by 1 image after reset. -/
theorem test_witness_encode_call : State.reset.DecIdle ∧ State.reset.EncFirst ∧
    [(⟨1, 2, 3, 4⟩ : Pixel), ⟨1, 2, 3, 4⟩].length = (2 : BitVec 32).toNat * (1 : BitVec 32).toNat ∧
    State.reset.startEncode [⟨1, 2, 3, 4⟩, ⟨1, 2, 3, 4⟩] ⟨2, 1, true, false⟩ =
      .next (encoderStart [⟨1, 2, 3, 4⟩, ⟨1, 2, 3, 4⟩] ⟨2, 1, true, false⟩) :=
  ⟨rfl, .inr rfl, rfl, rfl⟩

/-- DecoderStaysInLockStepWithEncoder: an encoder before its first pixel and a decoder at reset. -/
theorem test_witness_lock_step :
    (bothBusy .enc).enc.Inv ∧ (bothBusy .enc).AtPixel ⟨1, 2, 3, 4⟩ ∧
      (∃ t, step (bothBusy .enc) = .next t) ∧
      State.reset.dec.cache = (bothBusy .enc).enc.cache ∧
      State.reset.dec.px = (bothBusy .enc).enc.prev :=
  ⟨(bothBusy_inv _).enc, ⟨rfl, rfl, rfl⟩, ⟨_, rfl⟩, rfl, rfl⟩

end Sys2Proof.Tests
end

/-! ### The leading byte and the op it selects (30_encoding.md R48) -/

namespace Sys2Proof

/-! #### The fields of a byte, as bit slices and as numbers -/

theorem field_eq_extractLsb' (b : Byte) (hi lo : Nat) :
    field b hi lo = (b.extractLsb' lo (hi + 1 - lo)).toNat := by
  rw [field, BitVec.extractLsb'_toNat, Nat.shiftRight_eq_div_pow]

theorem topField_eq_iff (b : Byte) (t : BitVec 2) :
    field b 7 6 = t.toNat ↔ b.extractLsb' 6 2 = t := by
  rw [field_eq_extractLsb', BitVec.toNat_inj]

theorem topField_eq_div (b : Byte) : field b 7 6 = b.toNat / 64 := by
  have hb : b.toNat < 256 := b.isLt
  simp only [field]
  omega

theorem mask_topField (b : Byte) : (b &&& 0xC0).toNat = 64 * field b 7 6 := by
  revert b; decide

theorem mask_eq_iff_range (b m : Byte) :
    b &&& 0xC0 = m ↔ 64 * (b.toNat / 64) = m.toNat := by
  rw [← BitVec.toNat_inj, mask_topField, topField_eq_div]

theorem slotField_val (b : Byte) : (slotField b).val = (b.extractLsb' 0 6).toNat := by
  rw [← field_eq_extractLsb' b 5 0]
  exact Nat.mod_eq_of_lt (Nat.mod_lt _ (by decide))

/-! #### The forms of the dispatch: top bits, ranges, masks -/

theorem dispatch_eq_of_topBits (b : Byte) :
    dispatch b =
      if b = 0xFF then .rgba else if b = 0xFE then .rgb
      else if b.extractLsb' 6 2 = 0b00#2 then .index else if b.extractLsb' 6 2 = 0b01#2 then .diff
      else if b.extractLsb' 6 2 = 0b10#2 then .luma else .run := by
  simp only [← topField_eq_iff]
  rfl

theorem dispatch_eq_of_range (b : Byte) :
    dispatch b =
      if b.toNat ≤ 0x3F then .index else if b.toNat ≤ 0x7F then .diff
      else if b.toNat ≤ 0xBF then .luma else if b.toNat ≤ 0xFD then .run
      else if b.toNat = 0xFE then .rgb else .rgba := by
  have hb : b.toNat < 256 := b.isLt
  have hFF : b = Config.tagRgba ↔ b.toNat = 0xFF := BitVec.toNat_inj.symm
  have hFE : b = Config.tagRgb ↔ b.toNat = 0xFE := BitVec.toNat_inj.symm
  simp only [dispatch, hFF, hFE, topField_eq_div]
  grind

/-- Each tag and each mask names one of the ranges of `dispatch_eq_of_range`; the mask `C0` alone
does not tell RUN from the two exact tags. -/
theorem dispatch_eq_iff_masks (b : Byte) :
    (dispatch b = .index ↔ b &&& 0xC0 = 0x00) ∧ (dispatch b = .diff ↔ b &&& 0xC0 = 0x40) ∧
    (dispatch b = .luma ↔ b &&& 0xC0 = 0x80) ∧
    (dispatch b = .run ↔ b &&& 0xC0 = 0xC0 ∧ b.toNat < 0xFE) ∧
    (dispatch b = .rgb ↔ b &&& 0xFF = 0xFE) ∧ (dispatch b = .rgba ↔ b &&& 0xFF = 0xFF) := by
  have hb : b.toNat < 256 := b.isLt
  have hFull : b &&& 0xFF = b := BitVec.and_allOnes
  rw [hFull, ← BitVec.toNat_inj (x := b) (y := 0xFE), ← BitVec.toNat_inj (x := b) (y := 0xFF)]
  simp only [mask_eq_iff_range, dispatch_eq_of_range]
  refine ⟨?index, ?diff, ?luma, ?run, ?rgb, ?rgba⟩ <;> grind

/-! #### What the leading byte fixes of the op: its operand and its length -/

theorem decode_of_index {b : Byte} (h : dispatch b = .index) (rest : List Byte) :
    decode (b :: rest) = .ok (.index (slotField b), rest) := by
  simp only [decode, h]

theorem decode_of_run {b : Byte} (h : dispatch b = .run) (rest : List Byte) :
    decode (b :: rest) = .ok (.run (field b 5 0 + 1), rest) := by
  simp only [decode, h]

/-- The stored length 0 to 61 plus one: the two codes above it are the exact tags. -/
theorem inRunRange_of_run {b : Byte} (h : dispatch b = .run) : inRunRange (field b 5 0 + 1) := by
  obtain ⟨-, -, -, -, -, hrun⟩ := leading_byte_rebuilds b
  simpa only [Instr.wf, decide_eq_true_eq] using (hrun h).1

theorem dispatch_length (b : Byte) :
    (dispatch b).length =
      if b = 0xFF then 5 else if b = 0xFE then 4 else if dispatch b = .luma then 2 else 1 := by
  by_cases hFF : b = 0xFF
  · subst hFF; rfl
  by_cases hFE : b = 0xFE
  · subst hFE; rfl
  obtain ⟨hrgba, hrgb, -⟩ := leading_byte_rebuilds b
  rw [if_neg hFF, if_neg hFE]
  cases hd : dispatch b with
  | rgba => exact absurd (hrgba hd) hFF
  | rgb => exact absurd (hrgb hd) hFE
  | index | diff | luma | run => rfl

/-- Settles O2: the dispatch in its three forms (test order, ranges, masks), then the operand and
the length that the leading byte fixes. -/
theorem leadingByteSelectsTheOp : Obligations.LeadingByteSelectsTheOp := by
  intro b
  obtain ⟨hindex, hdiff, hluma, hrun, hrgb, hrgba⟩ := dispatch_eq_iff_masks b
  refine ⟨dispatch_eq_of_topBits b, dispatch_eq_of_range b, hindex, hdiff, hluma, hrun, hrgb, hrgba,
    fun rest h => ⟨slotField b, slotField_val b, decode_of_index h rest⟩, fun rest h => ?_,
    dispatch_length b⟩
  obtain ⟨hpos, hmax⟩ := inRunRange_of_run h
  exact ⟨field b 5 0 + 1, by rw [field_eq_extractLsb'], hpos, hmax, decode_of_run h rest⟩

end Sys2Proof

/-! ### The header parse (40_header.md R64 to R67) -/

namespace Sys2Proof.Machine

/-- The magic is compared whole: all four bytes, none of the rest (40_header.md R65). -/
theorem take_four_eq_magic_iff (m0 m1 m2 m3 : Byte) (rest : List Byte) :
    (m0 :: m1 :: m2 :: m3 :: rest).take 4 = Config.magic ↔
      m0 = 0x71 ∧ m1 = 0x6F ∧ m2 = 0x69 ∧ m3 = 0x66 := by
  simp only [Config.magic, List.take_succ_cons, List.take_zero, List.cons.injEq, and_true]

theorem linearFlag_eq_true_iff (s : Byte) : linearFlag s = true ↔ s ≠ 0 := bne_iff_ne

theorem hdrParse_of_magic {bs : List Byte} (h : bs.take 4 = Config.magic) :
    hdrParse bs = .ok {
      width := be32 (bs.getD 4 0) (bs.getD 5 0) (bs.getD 6 0) (bs.getD 7 0)
      height := be32 (bs.getD 8 0) (bs.getD 9 0) (bs.getD 10 0) (bs.getD 11 0)
      hasAlpha := Config.chanFlag (bs.getD 12 0)
      linearRgb := linearFlag (bs.getD 13 0) } :=
  if_pos h

theorem hdrParse_of_not_magic {bs : List Byte} (h : bs.take 4 ≠ Config.magic) :
    hdrParse bs = .error (bs.take 4) :=
  if_neg h

/-- Settles O18: the two branches of the magic test; after a good magic each field is read off
`hdrParse_of_magic`, width and height as numbers by `be32_toNat`. -/
theorem headerParseReadsTheFields : Obligations.HeaderParseReadsTheFields := by
  intro m0 m1 m2 m3 w0 w1 w2 w3 h0 h1 h2 h3 c s bs
  have hmagic : bs.take 4 = Config.magic ↔ _ := take_four_eq_magic_iff m0 m1 m2 m3 _
  split
  case isTrue h =>
    exact ⟨_, hdrParse_of_magic (hmagic.mpr h), be32_toNat w0 w1 w2 w3, be32_toNat h0 h1 h2 h3,
      rfl, linearFlag_eq_true_iff s⟩
  case isFalse h => exact hdrParse_of_not_magic (mt hmagic.mp h)

end Sys2Proof.Machine

/-! ### The hash of a pixel (41_cache.md R73) -/

namespace Sys2Proof.Machine

/-- The sum is largest at the white opaque pixel, `255 * 26` (41_cache.md R73). -/
theorem weightedSum_le (p : Pixel) :
    p.r.toNat * 3 + p.g.toNat * 5 + p.b.toNat * 7 + p.a.toNat * 11 ≤ 6630 := by
  have byte_le (x : Byte) : x.toNat ≤ 255 := Nat.le_of_lt_succ x.isLt
  calc p.r.toNat * 3 + p.g.toNat * 5 + p.b.toNat * 7 + p.a.toNat * 11
      ≤ 255 * 3 + 255 * 5 + 255 * 7 + 255 * 11 := by gcongr <;> exact byte_le _
    _ = 6630 := by norm_num

/-- Settles O15: the formula is `pixelHash_val`, the bound `weightedSum_le`; the four examples of
the rule are evaluated. -/
theorem hashIsWeightedSumModulo64 : Obligations.HashIsWeightedSumModulo64 :=
  ⟨fun p => ⟨pixelHash_val p, weightedSum_le p⟩, by decide⟩

end Sys2Proof.Machine

/-! ### The literal ops and INDEX (42_decoder.md R87 to R89) -/

namespace Sys2Proof

/-! #### What their bytes decode to, whatever bytes follow -/

theorem decode_rgba (r g b a : Byte) (rest : List Byte) :
    decode (0xFF :: r :: g :: b :: a :: rest) = .ok (.rgba r g b a, rest) := rfl

theorem decode_rgb (r g b : Byte) (rest : List Byte) :
    decode (0xFE :: r :: g :: b :: rest) = .ok (.rgb r g b, rest) := rfl

theorem decode_index (i : Slot) (rest : List Byte) :
    decode (BitVec.ofNat 8 i.val :: rest) = .ok (.index i, rest) := by
  obtain ⟨hdispatch, hslot⟩ := index_byte i
  rw [decode_of_index hdispatch, hslot]

end Sys2Proof

namespace Sys2Proof.Machine

/-! #### Any op: its answer, and the step that fetches it -/

theorem exec_next_effect (i : Instr) (s : State) :
    ∃ t, exec i s = .next t ∧ OpEffect s t (opPixel i s.dec) (opCount i) i.kind.length :=
  ⟨_, exec_eq i s, exec_effect i s⟩

theorem step_of_decode {s : State} {i : Instr} {rest : List Byte} (h : s.AtOp)
    (hd : decode s.dec.fetchBytes = .ok (i, rest)) : step s = exec i s := by
  rw [step_at_op h, hd]

/-- The fetch takes as many bytes as the longest op has, so the bytes after a shorter op must not
matter to what it decodes to. -/
theorem step_of_bytes_at_pos {s : State} {i : Instr} {n : Nat} {bs : List Byte} (h : s.AtOp)
    (hn : n ≤ 5) (hread : s.dec.inp.readList s.dec.pos n = bs)
    (hdecode : ∀ rest, decode (bs ++ rest) = .ok (i, rest)) : step s = exec i s := by
  obtain ⟨rest, hfetch⟩ := DecState.fetchBytes_of_readList hn hread
  exact step_of_decode h (hfetch ▸ hdecode rest)

/-! #### The three statements -/

/-- Settles O9: the effect is that of every op, here with the four operands as the pixel; the step
fetches the tag `FF` and the payload. -/
theorem rgbaLoadsAllFourChannels : Obligations.RgbaLoadsAllFourChannels :=
  fun s r g b a => ⟨exec_next_effect (.rgba r g b a) s,
    fun h hread => step_of_bytes_at_pos h (by decide) hread (decode_rgba r g b a)⟩

/-- Settles O10: as for RGBA, with the alpha of `px` before the op and the tag `FE`. -/
theorem rgbLoadsThreeChannelsKeepsAlpha : Obligations.RgbLoadsThreeChannelsKeepsAlpha :=
  fun s r g b => ⟨exec_next_effect (.rgb r g b) s,
    fun h hread => step_of_bytes_at_pos h (by decide) hread (decode_rgb r g b)⟩

/-- Settles O11: `opPixel` reads the slot in the decoder before the op; the one byte of the op is
its slot number. -/
theorem indexLoadsTheCacheSlot : Obligations.IndexLoadsTheCacheSlot :=
  fun s i => ⟨exec_next_effect (.index i) s,
    fun h hread => step_of_bytes_at_pos h (by decide) hread (decode_index i)⟩

end Sys2Proof.Machine

/-! ### The round trip (43_encoder.md R116): the bytes of an op and of a header, read back -/

namespace Sys2Proof

theorem decode_of_diff {b : Byte} (h : dispatch b = .diff) (rest : List Byte) :
    decode (b :: rest) =
      .ok (.diff (unbias (field b 5 4) Config.diffBias) (unbias (field b 3 2) Config.diffBias)
        (unbias (field b 1 0) Config.diffBias), rest) := by
  simp only [decode, h]

theorem decode_of_luma {b : Byte} (h : dispatch b = .luma) (b1 : Byte) (rest : List Byte) :
    decode (b :: b1 :: rest) =
      .ok (.luma (unbias (field b 5 0) Config.lumaGBias) (unbias (field b1 7 4) Config.lumaRBBias)
        (unbias (field b1 3 0) Config.lumaRBBias), rest) := by
  simp only [decode, h]

theorem decode_encode {i : Instr} (h : i.wf = true) (rest : List Byte) :
    decode (encode i ++ rest) = .ok (i, rest) := by
  cases i with
  | rgba r g b a => exact decode_rgba r g b a rest
  | rgb r g b => exact decode_rgb r g b rest
  | index i => exact decode_index i rest
  | diff dr dg db =>
    obtain ⟨hr, hg, hb⟩ := of_decide_eq_true h
    obtain ⟨hdispatch, er, eg, eb⟩ := diff_byte hr hg hb
    have hd := decode_of_diff hdispatch rest
    rwa [er, eg, eb] at hd
  | luma dg drg dbg =>
    obtain ⟨hg, hrg, hbg⟩ := of_decide_eq_true h
    obtain ⟨hdispatch, eg⟩ := luma_first_byte hg
    obtain ⟨er, eb⟩ := luma_second_byte hrg hbg
    have hd := decode_of_luma hdispatch
      (biased drg Config.lumaRBBias <<< 4 ||| biased dbg Config.lumaRBBias) rest
    rwa [eg, er, eb] at hd
  | run n =>
    obtain ⟨hdispatch, en⟩ := run_byte (of_decide_eq_true h)
    have hd := decode_of_run hdispatch rest
    rwa [en] at hd

end Sys2Proof

namespace Sys2Proof.Machine

theorem chanFlag_channelsByte (hasAlpha : Bool) :
    Config.chanFlag (channelsByte hasAlpha) = hasAlpha := by
  cases hasAlpha <;> rfl

theorem linearFlag_colorspaceByte (linear : Bool) :
    linearFlag (colorspaceByte linear) = linear := by
  cases linear <;> rfl

theorem hdrParse_hdrSerialize (h : Header) : hdrParse (hdrSerialize h) = .ok h := by
  obtain ⟨width, height, hasAlpha, linear⟩ := h
  rw [hdrParse_of_magic (bs := hdrSerialize ⟨width, height, hasAlpha, linear⟩) rfl]
  congr 2
  · exact be32_extract width
  · exact be32_extract height
  · exact chanFlag_channelsByte hasAlpha
  · exact linearFlag_colorspaceByte linear

/-! ### The chosen op gives the pixel back -/

theorem addWrap_deltaChannel (cur prev : Byte) : addWrap prev (deltaChannel cur prev) = cur := by
  have hcur := cur.isLt
  have hadd := addWrap_toNat prev (deltaChannel cur prev)
  have hdelta : (deltaChannel cur prev - ((cur.toNat : Int) - prev.toNat)) % 256 = 0 := by
    simp only [deltaChannel, sext8, wrap8, BitVec.toNat_ofInt]
    omega
  apply BitVec.eq_of_toNat_eq
  omega

theorem shiftPixel_delta {cur prev : Pixel} (ha : cur.a = prev.a) :
    shiftPixel prev (delta cur prev).dr (delta cur prev).dg (delta cur prev).db = cur := by
  simp only [shiftPixel, delta, addWrap_deltaChannel, ← ha]

/-- The six choices of 43_encoder.md R103 have operands in range, are one pixel each, and lead a
decoder with the encoder's cache and previous pixel to the pixel. -/
theorem EncState.chooseOp_spec (e : EncState) (cur : Pixel) :
    (e.chooseOp cur).wf = true ∧ opCount (e.chooseOp cur) = 1 ∧
      ∀ d : DecState, d.cache = e.cache → d.px = e.prev → opPixel (e.chooseOp cur) d = cur := by
  unfold EncState.chooseOp
  split
  case isTrue hread => exact ⟨rfl, rfl, fun d hc _ => by simp only [opPixel, hc, hread]⟩
  case isFalse =>
    split
    case isFalse => exact ⟨rfl, rfl, fun _ _ _ => rfl⟩
    case isTrue ha =>
      have hshift := shiftPixel_delta ha
      dsimp only
      split
      case isTrue hfit =>
        exact ⟨decide_eq_true hfit, rfl, fun d _ hp => by simp only [opPixel, hp, hshift]⟩
      case isFalse =>
        split
        case isTrue hfit =>
          refine ⟨decide_eq_true hfit, rfl, fun d _ hp => ?_⟩
          simp only [opPixel, hp, add_sub_cancel, hshift]
        case isFalse => exact ⟨rfl, rfl, fun d _ hp => by simp only [opPixel, hp, ← ha]⟩

end Sys2Proof.Machine

/-! ### The two engines in step (41_cache.md R79) -/

namespace Sys2Proof.Machine

/-- The decoder holds the encoder's cache and previous pixel. -/
structure DecState.InStep (d : DecState) (e : EncState) : Prop where
  cache : d.cache = e.cache
  px : d.px = e.prev

/-- From `e` to `e'` the encoder writes the bytes of `ops` and with them the pixels `ps`; the decoder
`d`, in step with `e`, produces these pixels from these ops and is then in step with `e'`. -/
structure LockStep (d : DecState) (e : EncState) (ops : List Instr) (ps : List Pixel)
    (e' : EncState) : Prop where
  opsWf : ∀ i ∈ ops, i.wf = true
  bytes : e'.outb.bytes = e.outb.bytes ++ ops.flatMap encode
  flushed : e'.flushed = e.flushed ++ ps
  inStep : (decAfterOps ops d).InStep e'
  out : (decAfterOps ops d).out = d.out ++ ps

section
variable {d : DecState} {e : EncState}

@[simp] theorem decAfterOps_nil : decAfterOps [] d = d := rfl

@[simp] theorem decAfterOps_singleton (i : Instr) : decAfterOps [i] d = decAfterOp i d := rfl

theorem LockStep.refl (hd : d.InStep e) : LockStep d e [] [] e where
  opsWf := by simp
  bytes := by simp
  flushed := by simp
  inStep := hd
  out := by simp

theorem LockStep.trans {e' e'' : EncState} {ops ops' : List Instr} {ps ps' : List Pixel}
    (h : LockStep d e ops ps e') (h' : LockStep (decAfterOps ops d) e' ops' ps' e'') :
    LockStep d e (ops ++ ops') (ps ++ ps') e'' where
  opsWf := fun i hi => (List.mem_append.mp hi).elim (h.opsWf i) (h'.opsWf i)
  bytes := by rw [h'.bytes, h.bytes, List.flatMap_append, List.append_assoc]
  flushed := by rw [h'.flushed, h.flushed, List.append_assoc]
  inStep := by rw [decAfterOps_append]; exact h'.inStep
  out := by rw [decAfterOps_append, h'.out, h.out, List.append_assoc]

/-- With no run pending, every consumed pixel is written out. -/
theorem EncState.flushed_of_run_eq_zero (h : e.run = 0) : e.flushed = e.pix.take e.ipx := by
  simp [flushed, h]

theorem EncState.flushIfPending_outb_wf (h : e.outb.wf = true) :
    e.flushIfPending.outb.wf = true := by
  rw [flushIfPending_eq]
  exact Memory.emit_wf h _

@[simp] theorem EncState.flushIfPending_run : e.flushIfPending.run = 0 := by rw [flushIfPending_eq]

@[simp] theorem EncState.flushIfPending_pix : e.flushIfPending.pix = e.pix := by
  rw [flushIfPending_eq]

@[simp] theorem EncState.flushIfPending_ipx : e.flushIfPending.ipx = e.ipx := by
  rw [flushIfPending_eq]

theorem lockStep_flush (hi : e.Inv) (hd : d.InStep e) :
    ∃ ops ps, LockStep d e ops ps e.flushIfPending := by
  obtain ⟨ops, hwf, hbytes, hcache, hpx, hout⟩ := hi.flush_ops hd.cache hd.px
  refine ⟨ops, List.replicate e.run.toNat e.prev, ?_⟩
  rw [EncState.flushIfPending_eq]
  exact {
    opsWf := hwf
    bytes := by rw [← hbytes]; exact Memory.bytes_emit hi.outWf _
    flushed := (EncState.flushed_of_run_eq_zero rfl).trans hi.pending
    inStep := ⟨hcache, hpx⟩
    out := hout }

/-- The chosen op alone, after the flush. -/
theorem lockStep_choice {cur : Pixel} (hwf : e.outb.wf = true) (hrun : e.run = 0)
    (hcur : e.pix[e.ipx]? = some cur) (hd : d.InStep e) :
    LockStep d e [e.chooseOp cur] [cur] { e.emitOp (e.chooseOp cur) with
      cache := e.cache.update cur, prev := cur, ipx := e.ipx + 1 } := by
  obtain ⟨hopWf, hcount, hpixel⟩ := e.chooseOp_spec cur
  have hpx : opPixel (e.chooseOp cur) d = cur := hpixel d hd.cache hd.px
  exact {
    opsWf := fun i hi => List.mem_singleton.mp hi ▸ hopWf
    bytes := by simp [Memory.bytes_emit hwf]
    flushed := by
      rw [EncState.flushed_of_run_eq_zero hrun, ← take_succ_of_getElem? hcur]
      exact EncState.flushed_of_run_eq_zero hrun
    inStep := ⟨by simp [decAfterOp, hpx, hd.cache], hpx⟩
    out := by simp [decAfterOp, hpx, hcount] }

theorem lockStep_differing_pixel {cur : Pixel} (hi : e.Inv) (hcur : e.pix[e.ipx]? = some cur)
    (hd : d.InStep e) :
    ∃ ops ps, LockStep d e ops ps { e.encodePixel cur with ipx := (e.encodePixel cur).ipx + 1 } := by
  obtain ⟨ops, ps, hflush⟩ := lockStep_flush hi hd
  have hchoice := lockStep_choice (EncState.flushIfPending_outb_wf hi.outWf)
    EncState.flushIfPending_run (cur := cur) (by simpa using hcur) hflush.inStep
  exact ⟨_, _, hflush.trans hchoice⟩

/-- Below the cap nothing is written; at the cap the RUN of 62 is. -/
theorem lockStep_equal_pixel (hi : e.Inv) (hcur : e.pix[e.ipx]? = some e.prev) (hd : d.InStep e) :
    ∃ ops ps, LockStep d e ops ps { e.extendRun with ipx := e.extendRun.ipx + 1 } := by
  by_cases hcap : e.run.toNat = 61
  · refine ⟨[.run 62], List.replicate 62 e.prev, ?_⟩
    rw [EncState.extendRun_cap hcap]
    exact {
      opsWf := by decide
      bytes := Memory.bytes_emit hi.outWf _
      flushed := by
        rw [List.replicate_succ', ← hcap, ← List.append_assoc, ← hi.pending,
          ← take_succ_of_getElem? hcur]
        exact EncState.flushed_of_run_eq_zero rfl
      inStep := ⟨by simp [decAfterOp, opPixel, hd.cache, hd.px], hd.px⟩
      out := by simp [decAfterOp, opPixel, opCount, hd.px] }
  · refine ⟨[], [], ?_⟩
    rw [EncState.extendRun_below hcap]
    have hlt : e.run.toNat < 62 := hi.runCap
    have hrun : (e.run + 1).toNat = e.run.toNat + 1 := by simp; omega
    exact { LockStep.refl hd with
      flushed := by
        rw [EncState.flushed, hrun, Nat.add_sub_add_right, List.append_nil]
        rfl
      inStep := ⟨hd.cache, hd.px⟩ }

end

theorem encStepPixel_of_ne {s : State} {cur : Pixel} (h : cur ≠ s.enc.prev) :
    encStepPixel cur s =
      s.onEnc fun e => { e.encodePixel cur with ipx := (e.encodePixel cur).ipx + 1 } := by
  simp only [encStepPixel, State.onEnc, if_neg h]

theorem lockStep_encStepPixel {s : State} {cur : Pixel} {d : DecState} (h : s.AtPixel cur)
    (hi : s.enc.Inv) (hd : d.InStep s.enc) :
    ∃ ops ps, LockStep d s.enc ops ps (encStepPixel cur s).enc := by
  obtain ⟨-, -, hcur⟩ := h
  by_cases heq : cur = s.enc.prev
  · rw [encStepPixel_same heq]
    exact lockStep_equal_pixel hi (heq ▸ hcur) hd
  · rw [encStepPixel_of_ne heq]
    exact lockStep_differing_pixel hi hcur hd

/-! ### The byte stream of an image (30_encoding.md R45) -/

/-- Header, op-stream, end marker (30_encoding.md R45). -/
def streamBytes (hdr : Header) (ops : List Instr) : List Byte :=
  hdrSerialize hdr ++ ops.flatMap encode ++ Config.endMarker

section
variable (hdr : Header) (ops : List Instr)

theorem streamBytes_length :
    (streamBytes hdr ops).length =
      Config.headerLen + (ops.flatMap encode).length + Config.endMarkerLen := by
  simp only [streamBytes, List.length_append, hdrSerialize_length]
  rfl

theorem streamBytes_take_header :
    (streamBytes hdr ops).take Config.headerLen = hdrSerialize hdr := by
  rw [streamBytes, List.append_assoc]
  exact List.take_left' (hdrSerialize_length hdr)

theorem streamBytes_drop_header :
    (streamBytes hdr ops).drop Config.headerLen = ops.flatMap encode ++ Config.endMarker := by
  rw [streamBytes, List.append_assoc]
  exact List.drop_left' (hdrSerialize_length hdr)

theorem streamBytes_drop_ops :
    (streamBytes hdr ops).drop (Config.headerLen + (ops.flatMap encode).length) =
      Config.endMarker := by
  rw [← List.drop_drop, streamBytes_drop_header, List.drop_left]

end

/-! ### The whole encode, as ops -/

/-- From its loop the encoder reaches ENC.FINISH, one step for each pixel left. -/
theorem encode_pixels (k : Nat) {s : State} {d : DecState} (hfirst : s.EncFirst)
    (hloop : s.enc.stage = .loop) (hi : s.enc.Inv) (hk : s.enc.ipx + k = s.enc.pix.length)
    (hd : d.InStep s.enc) :
    ∃ (t : State) (ops : List Instr) (ps : List Pixel),
      Steps k s t ∧ LockStep d s.enc ops ps t.enc ∧ t.AtEncFinish ∧ t.enc.Inv ∧
        t.enc.pix = s.enc.pix ∧ t.dec = s.dec := by
  induction k generalizing s d with
  | zero =>
    have hmover : s.mover = some .enc := State.mover_enc hfirst (by simp [hloop])
    exact ⟨s, [], [], Steps.refl s, LockStep.refl hd, ⟨hmover, hloop, Nat.le_of_eq hk.symm⟩, hi,
      rfl, rfl⟩
  | succ k ih =>
    have hlt : s.enc.ipx < s.enc.pix.length := by omega
    have hat : s.AtPixel s.enc.pix[s.enc.ipx] :=
      ⟨State.mover_enc hfirst (by simp [hloop]), hloop, List.getElem?_eq_getElem hlt⟩
    obtain ⟨ops, ps, hstep⟩ := lockStep_encStepPixel hat hi hd
    obtain ⟨hstage, hipx, hpix, -, -, -, hdec, hturn⟩ :=
      encStepPixel_frame s.enc.pix[s.enc.ipx] s
    have hinv := encStepPixel_inv hat hi
    generalize hu : encStepPixel s.enc.pix[s.enc.ipx] s = u at *
    have hfirst' : u.EncFirst := by rwa [State.EncFirst, hturn, hdec]
    obtain ⟨t, ops', ps', hsteps, hlock, hfin, hinv', hpix', hdec'⟩ :=
      ih hfirst' (hstage.trans hloop) hinv (by rw [hipx, hpix]; omega) hstep.inStep
    exact ⟨t, ops ++ ops', ps ++ ps', Steps.cons (hu ▸ step_at_pixel hat) hsteps,
      hstep.trans hlock, hfin, hinv', hpix'.trans hpix, hdec'.trans hdec⟩

/-- The encoder before its first pixel: the header written, all other registers as at reset
(43_encoder.md R100). -/
def EncState.loopStart (pix : List Pixel) (cfg : Header) : EncState :=
  { EncState.reset with
    pix := pix, cfg := cfg, hdr := cfg, outb := Memory.ofBytes (hdrSerialize cfg), stage := .loop }

section
variable {s s1 : State} {pix : List Pixel} {cfg : Header}

theorem EncState.loopStart_inv (hlen : pix.length = cfg.imageSize) :
    (EncState.loopStart pix cfg).Inv where
  outWf := Memory.ofBytes_wf _
  runCap := Nat.zero_lt_succ _
  ipxBound := Nat.zero_le _
  runBound := Nat.le_refl _
  pending := rfl
  prevLast := rfl
  cacheLast := Cache.reflects_reset
  starting := fun h => by cases h
  looping := fun _ => ⟨rfl, hlen, rfl, by simp [loopStart, Config.headerLen], Nat.zero_le _,
    by simp [loopStart, Config.headerLen]⟩

theorem step_of_startEncode (hfirst : s.EncFirst) (hlen : pix.length = cfg.imageSize)
    (hstart : s.startEncode pix cfg = .next s1) :
    step s1 = .next { s with enc := EncState.loopStart pix cfg } := by
  obtain ⟨-, hs1⟩ := startEncode_next hstart
  have hat : s1.AtEncStart := hs1 ▸ ⟨State.mover_enc hfirst Stage.noConfusion, rfl⟩
  rw [step_at_enc_start hat, encStart_go (s := s1) (by rw [hs1]; exact hlen), hs1]
  rfl

/-- The bytes of a whole encode: the header, ops that stand for exactly the pixels, the marker. -/
theorem encode_writes_stream (hfirst : s.EncFirst) (hlen : pix.length = cfg.imageSize)
    (hstart : s.startEncode pix cfg = .next s1) :
    ∃ (t : State) (ops : List Instr),
      Steps (pix.length + 2) s1 t ∧ t.EncIdle ∧ t.dec = s.dec ∧
      t.encodeResult = some (streamBytes cfg ops) ∧
      (∀ i ∈ ops, i.wf = true) ∧ (decAfterOps ops DecState.reset).out = pix := by
  obtain ⟨t, ops, ps, hsteps, hlock, hfin, hinv, hpix, hdec⟩ :=
    encode_pixels (s := { s with enc := EncState.loopStart pix cfg }) (d := DecState.reset)
      pix.length hfirst rfl (EncState.loopStart_inv hlen) (Nat.zero_add _) ⟨rfl, rfl⟩
  obtain ⟨ops', ps', hflush⟩ := lockStep_flush hinv hlock.inStep
  obtain ⟨hwf, hbytes, hflushed, -, hout⟩ := hlock.trans hflush
  have hdone : t.enc.flushIfPending.flushed = pix := by
    obtain ⟨-, -, hnoneLeft⟩ := hfin
    rw [EncState.flushed_of_run_eq_zero EncState.flushIfPending_run, EncState.flushIfPending_pix,
      EncState.flushIfPending_ipx, List.take_of_length_le hnoneLeft, hpix]
    rfl
  have hresult : (encFinish t).encodeResult =
      some (t.enc.flushIfPending.outb.emit Config.endMarker).bytes := rfl
  refine ⟨encFinish t, ops ++ ops',
    Steps.cons (step_of_startEncode hfirst hlen hstart)
      (hsteps.trans (Steps.one (step_at_enc_finish hfin))), rfl, hdec, ?_, hwf, ?_⟩
  · rw [hresult, Memory.bytes_emit (EncState.flushIfPending_outb_wf hinv.outWf), hbytes]
    simp [EncState.loopStart, streamBytes]
  · rw [hout, ← hdone, hflushed]
    rfl

end

/-! ### The whole decode of a stream of ops -/

theorem OpKind.length_pos (k : OpKind) : 0 < k.length := by cases k <;> decide

theorem OpKind.length_le_maxOpLen (k : OpKind) : k.length ≤ maxOpLen := by cases k <;> decide

/-- Ops that stand at `pos` with the end marker behind them run one a step. -/
theorem decode_ops {ops : List Instr} (hwf : ∀ i ∈ ops, i.wf = true) {s : State}
    (hfirst : s.DecFirst) (hloop : s.dec.stage = .loop)
    (hbytes : s.dec.inp.bytes.drop s.dec.pos = ops.flatMap encode ++ Config.endMarker) :
    Steps ops.length s (s.onDec (decAfterOps ops)) := by
  induction ops generalizing s with
  | nil => exact Steps.refl s
  | cons i is ih =>
    rw [List.flatMap_cons, List.append_assoc] at hbytes
    have hread : s.dec.inp.readList s.dec.pos i.kind.length = encode i := by
      rw [Memory.readList_eq, hbytes, List.take_left' (encode_length i)]
    have hpos := OpKind.length_pos i.kind
    have hdue : s.dec.pos < s.dec.endPos := by
      have hlen := congrArg List.length hbytes
      have hmarker : Config.endMarker.length = Config.endMarkerLen := rfl
      simp only [List.length_drop, Memory.bytes_length, List.length_append, encode_length,
        hmarker] at hlen
      simp only [DecState.endPos]
      omega
    have hat : s.AtOp := ⟨State.mover_dec hfirst (by simp [hloop]), hloop, hdue⟩
    have hstep : step s = .next (s.onDec (decAfterOp i)) := by
      rw [step_of_bytes_at_pos hat (OpKind.length_le_maxOpLen i.kind) hread
        (decode_encode (hwf i List.mem_cons_self)), exec_eq]
    refine Steps.cons hstep (ih (fun j hj => hwf j (List.mem_cons_of_mem i hj)) hfirst hloop ?_)
    show s.dec.inp.bytes.drop (s.dec.pos + i.kind.length) = _
    rw [← List.drop_drop, hbytes, List.drop_left' (encode_length i)]

/-- The decoder before the first op of a stream: the header parsed, all other registers as at reset
(42_decoder.md R81). -/
def DecState.loopStart (hdr : Header) (ops : List Instr) : DecState :=
  { DecState.reset with
    inp := Memory.ofBytes (streamBytes hdr ops), hdr := hdr, stage := .loop }

section
variable {s s1 : State} {hdr : Header} {ops : List Instr}

theorem DecState.loopStart_bytes :
    (DecState.loopStart hdr ops).inp.bytes = streamBytes hdr ops := by
  rw [loopStart, Memory.bytes_ofBytes]

theorem step_of_startDecode (hfirst : s.DecFirst)
    (hstart : s.startDecode (streamBytes hdr ops) = .next s1) :
    step s1 = .next { s with dec := DecState.loopStart hdr ops } := by
  obtain ⟨-, hs1⟩ := startDecode_next hstart
  have hat : s1.AtDecStart := hs1 ▸ ⟨State.mover_dec hfirst Stage.noConfusion, rfl⟩
  have hinp : s1.dec.inp = Memory.ofBytes (streamBytes hdr ops) := by rw [hs1]
  have hlen := streamBytes_length hdr ops
  rw [← Memory.ofBytes_len, ← hinp] at hlen
  have hparse : hdrParse (s1.dec.inp.readList 0 Config.headerLen) = .ok hdr := by
    rw [hinp, Memory.readList_eq, Memory.bytes_ofBytes, List.drop_zero, streamBytes_take_header,
      hdrParse_hdrSerialize]
  rw [step_at_dec_start hat, decStart_loop (by omega) hparse (by omega), hs1,
    DecState.loopStart]
  generalize streamBytes hdr ops = bytes
  rfl

/-- After the ops of the stream the decoder stands at the end marker. -/
theorem decAfterOps_at_marker {d : DecState}
    (hd : d = decAfterOps ops (DecState.loopStart hdr ops)) :
    d.stage = .loop ∧ d.hdr = hdr ∧ d.pos = d.endPos ∧
      d.inp.readList d.endPos Config.endMarkerLen = Config.endMarker ∧
      d.outcnt = d.out.length ∧ d.out = (decAfterOps ops DecState.reset).out := by
  obtain ⟨hinp, hhdr, hstage, hpos, hcounted⟩ := decAfterOps_frame ops (DecState.loopStart hdr ops)
  obtain ⟨-, -, hout⟩ := decAfterOps_congr ops (d := DecState.loopStart hdr ops)
    (d' := DecState.reset) rfl rfl rfl
  rw [← hd] at hinp hhdr hstage hpos hcounted hout
  have hbytes : d.inp.bytes = streamBytes hdr ops := by rw [hinp, DecState.loopStart_bytes]
  have hend : d.endPos = Config.headerLen + (ops.flatMap encode).length := by
    rw [DecState.endPos, ← Memory.bytes_length, hbytes, streamBytes_length, Nat.add_sub_cancel]
  refine ⟨hstage, hhdr, hpos.trans hend.symm, ?_, hcounted rfl, hout⟩
  rw [Memory.readList_eq, hbytes, hend, streamBytes_drop_ops]
  rfl

/-- A stream whose ops make as many pixels as its header says decodes to these pixels and this
header. -/
theorem decode_reads_stream (hfirst : s.DecFirst) (hwf : ∀ i ∈ ops, i.wf = true)
    (hcount : (decAfterOps ops DecState.reset).out.length = hdr.imageSize)
    (hstart : s.startDecode (streamBytes hdr ops) = .next s1) :
    ∃ u : State, Steps (ops.length + 2) s1 u ∧ u.DecIdle ∧
      u.decodeResult = some (.image (decAfterOps ops DecState.reset).out hdr) := by
  have hrun : Steps ops.length { s with dec := DecState.loopStart hdr ops }
      { s with dec := decAfterOps ops (DecState.loopStart hdr ops) } := by
    refine decode_ops hwf hfirst rfl ?_
    rw [DecState.loopStart_bytes]
    exact streamBytes_drop_header hdr ops
  generalize hd : decAfterOps ops (DecState.loopStart hdr ops) = d at hrun
  obtain ⟨hstage, hhdr, hpos, hmarker, hcounted, hout⟩ := decAfterOps_at_marker hd.symm
  have hat : State.AtDecFinish { s with dec := d } :=
    ⟨State.mover_dec hfirst (by simp [hstage]), hstage, Nat.le_of_eq hpos.symm⟩
  have hsize : d.outcnt = d.hdr.imageSize := by rw [hcounted, hout, hcount, hhdr]
  have hfinish := step_at_dec_finish hat
  rw [decFinish_ok (s := { s with dec := d }) hpos hmarker hsize] at hfinish
  have hsteps : Steps (ops.length + 2) s1 _ :=
    Steps.cons (step_of_startDecode hfirst hstart) (hrun.trans (Steps.one hfinish))
  refine ⟨_, hsteps, rfl, ?_⟩
  rw [← hout, ← hhdr]
  rfl

end

/-! ### The round trip -/

/-- A decode can start on an idle decoder. -/
theorem startDecode_of_idle {s : State} (h : s.DecIdle) (bytes : List Byte) :
    s.startDecode bytes = .next { s with
      dec := { DecState.reset with inp := Memory.ofBytes bytes, stage := .start } } := by
  have hbusy : s.busy .dec = false := by simpa [State.busy, State.DecIdle] using h
  simp [State.startDecode, hbusy]

/-- Settles O55: the encode writes a stream whose ops, run by a decoder at reset, make exactly the
pixels; the decode of that stream runs just these ops between a good header and a good marker. -/
theorem decodeOfEncodedImageGivesItBack : Obligations.DecodeOfEncodedImageGivesItBack := by
  intro s s1 pix cfg hidle hlen hstart
  obtain ⟨t, ops, hsteps, hencIdle, hdec, hresult, hwf, hpixels⟩ :=
    encode_writes_stream (.inr hidle) hlen hstart
  have hdecIdle : t.DecIdle := by rwa [State.DecIdle, hdec]
  have hstartDec := startDecode_of_idle hdecIdle (streamBytes cfg ops)
  obtain ⟨u, hsteps', huIdle, himage⟩ :=
    decode_reads_stream (.inr hencIdle) hwf (by rw [hpixels]; exact hlen) hstartDec
  exact ⟨_, t, _, hsteps, hencIdle, hresult, _, _, u, hstartDec, hsteps', huIdle, hpixels ▸ himage⟩

end Sys2Proof.Machine

/-! ### The size mismatch (60_exceptions.md R127) -/

namespace Sys2Proof.Machine

/-- An image size loses nothing in the 64 bits of `ERR_EXPECTED` (40_header.md R68). -/
theorem Header.imageSize_toNat_ofNat (h : Header) :
    (BitVec.ofNat 64 h.imageSize).toNat = h.imageSize := by
  rw [BitVec.toNat_ofNat, Nat.mod_eq_of_lt h.imageSize_lt]

/-- The count is the last of the three tests: only where the two of the end marker pass does a wrong
one decide the status. -/
theorem decFinish_status_errSizeMismatch_iff (s : State) :
    (decFinish s).dec.status = .errSizeMismatch ↔
      s.dec.pos = s.dec.endPos ∧
        s.dec.inp.readList s.dec.endPos Config.endMarkerLen = Config.endMarker ∧
        s.dec.outcnt ≠ s.dec.hdr.imageSize := by
  by_cases hbad : s.dec.pos ≠ s.dec.endPos ∨
      s.dec.inp.readList s.dec.endPos Config.endMarkerLen ≠ Config.endMarker
  · rw [decFinish_badMarker hbad]
    exact iff_of_false Status.noConfusion fun ⟨hpos, hmarker, _⟩ =>
      hbad.elim (· hpos) (· hmarker)
  · obtain ⟨hpos, hmarker⟩ := not_or.mp hbad
    rw [not_not] at hpos hmarker
    by_cases hcount : s.dec.outcnt = s.dec.hdr.imageSize
    · rw [decFinish_ok hpos hmarker hcount]
      exact iff_of_false Status.noConfusion fun ⟨_, _, hne⟩ => hne hcount
    · rw [decFinish_mismatch hpos hmarker hcount]
      exact iff_of_true rfl ⟨hpos, hmarker, hcount⟩

/-- Settles O28: the status says that all of DEC.FINISH but the count went well, and the raise then
hands back the two counts it was given. -/
theorem sizeMismatchCarriesBothCounts : Obligations.SizeMismatchCarriesBothCounts := by
  intro s hat
  obtain ⟨-, hidle, -⟩ := decFinish_frame s
  have hiff := decFinish_status_errSizeMismatch_iff s
  refine ⟨decFinish s, step_at_dec_finish hat, hidle, hiff, fun hstatus => ?_⟩
  obtain ⟨hpos, hmarker, hcount⟩ := hiff.mp hstatus
  rw [decFinish_mismatch hpos hmarker hcount]
  exact ⟨rfl, s.dec.hdr.imageSize_toNat_ofNat, rfl⟩

end Sys2Proof.Machine

/-! ### Bytes and ops, both ways (30_encoding.md R47 to R57) -/

namespace Sys2Proof

/-- Settles O4: `decode_encode`. -/
theorem decodeOfEncodeIsIdentity : Obligations.DecodeOfEncodeIsIdentity :=
  fun _ rest h => decode_encode h rest

/-- A leading byte with its payload is the encoding of a well-formed op: what makes the decoder and
the encoder inverse from the side of the bytes. -/
theorem exists_encode_eq {b : Byte} {rest : List Byte}
    (h : (dispatch b).length ≤ rest.length + 1) :
    ∃ i : Instr, i.wf = true ∧ i.kind = dispatch b ∧
      encode i ++ rest.drop ((dispatch b).length - 1) = b :: rest := by
  obtain ⟨hrgba, hrgb, hindex, hdiff, hluma, hrun⟩ := leading_byte_rebuilds b
  cases hd : dispatch b with
  | rgba =>
    rw [hd] at h
    match rest, h with
    | r :: g :: bl :: a :: rest, _ => exact ⟨.rgba r g bl a, rfl, rfl, by rw [hrgba hd]; rfl⟩
  | rgb =>
    rw [hd] at h
    match rest, h with
    | r :: g :: bl :: rest, _ => exact ⟨.rgb r g bl, rfl, rfl, by rw [hrgb hd]; rfl⟩
  | index => exact ⟨.index (slotField b), rfl, rfl, by simp [encode, hindex hd, OpKind.length]⟩
  | diff =>
    obtain ⟨hwf, henc⟩ := hdiff hd
    exact ⟨_, hwf, rfl, by rw [henc]; rfl⟩
  | luma =>
    rw [hd] at h
    match rest, h with
    | b1 :: rest, _ =>
      obtain ⟨hg, heq⟩ := hluma hd
      obtain ⟨hr, hb, heq1⟩ := luma_payload_rebuilds b1
      exact ⟨.luma _ _ _, decide_eq_true ⟨hg, hr, hb⟩, rfl, by rw [encode, heq, heq1]; rfl⟩
  | run =>
    obtain ⟨hwf, henc⟩ := hrun hd
    exact ⟨_, hwf, rfl, by rw [henc]; rfl⟩

theorem exists_decode_eq {b : Byte} {rest : List Byte}
    (h : (dispatch b).length ≤ rest.length + 1) :
    ∃ i : Instr, i.wf = true ∧ i.kind = dispatch b ∧
      decode (b :: rest) = .ok (i, rest.drop ((dispatch b).length - 1)) := by
  obtain ⟨i, hwf, hkind, henc⟩ := exists_encode_eq h
  exact ⟨i, hwf, hkind, by rw [← henc, decode_encode hwf]⟩

/-- Settles O3: the op of `exists_encode_eq`, which `decode_encode` reads back. -/
theorem everyOpWithItsPayloadDecodes : Obligations.EveryOpWithItsPayloadDecodes :=
  fun _ _ => exists_decode_eq

theorem payload_of_decode {b : Byte} {rest : List Byte} {r : Instr × List Byte}
    (h : decode (b :: rest) = .ok r) : (dispatch b).length ≤ rest.length + 1 := by
  cases hd : dispatch b with
  | rgba =>
    match rest, h with
    | _ :: _ :: _ :: _ :: _, _ => simp [OpKind.length]
    | [], h | [_], h | [_, _], h | [_, _, _], h => simp [decode, hd] at h
  | rgb =>
    match rest, h with
    | _ :: _ :: _ :: _, _ => simp [OpKind.length]
    | [], h | [_], h | [_, _], h => simp [decode, hd] at h
  | luma =>
    match rest, h with
    | _ :: _, _ => simp [OpKind.length]
    | [], h => simp [decode, hd] at h
  | index | diff | run => exact Nat.le_add_left 1 _

theorem decode_sound {bs : List Byte} {i : Instr} {rest : List Byte}
    (h : decode bs = .ok (i, rest)) : i.wf = true ∧ encode i ++ rest = bs := by
  match bs, h with
  | b :: tail, h =>
    obtain ⟨j, hwf, -, henc⟩ := exists_encode_eq (payload_of_decode h)
    rw [← henc, decode_encode hwf] at h
    cases h
    exact ⟨hwf, henc⟩

/-- Settles O5: bytes that decode hold the payload, so they are the encoding of some well-formed op,
and `decode_encode` says that this is the op decoded. -/
theorem encodeOfDecodeIsIdentity : Obligations.EncodeOfDecodeIsIdentity :=
  fun _ _ _ => decode_sound

/-- Settles O1: each word is evaluated. -/
theorem writtenOutWordsDecodeToTheirOps : Obligations.WrittenOutWordsDecodeToTheirOps :=
  ⟨rfl, rfl, rfl, rfl, rfl, rfl⟩

/-! #### The delta bytes as numbers (decisions D4 and D5) -/

/-- An operand in the range of an `n`-valued field is a stored value less the bias
(30_encoding.md R55). -/
theorem exists_stored {n : Nat} {d bias : Int} (h : 0 ≤ d + bias) (hn : d + bias < n) :
    ∃ k : Fin n, d = (k.val : Int) - bias :=
  ⟨⟨(d + bias).toNat, by omega⟩, by dsimp only; omega⟩

theorem encode_diff_byte {dr dg db : Int} (hr : inDiffRange dr) (hg : inDiffRange dg)
    (hb : inDiffRange db) :
    ∃ b : Byte, encode (.diff dr dg db) = [b] ∧
      (b.toNat : Int) = 0x40 + (dr + 2) * 16 + (dg + 2) * 4 + (db + 2) := by
  obtain ⟨i, rfl⟩ := exists_stored (n := 4) (d := dr) (bias := 2) (by omega) (by omega)
  obtain ⟨j, rfl⟩ := exists_stored (n := 4) (d := dg) (bias := 2) (by omega) (by omega)
  obtain ⟨k, rfl⟩ := exists_stored (n := 4) (d := db) (bias := 2) (by omega) (by omega)
  refine ⟨_, rfl, ?_⟩
  clear hr hg hb
  revert i j k
  decide

theorem encode_luma_bytes {dg drg dbg : Int} (hg : inLumaGRange dg) (hr : inLumaRBRange drg)
    (hb : inLumaRBRange dbg) :
    ∃ b0 b1 : Byte, encode (.luma dg drg dbg) = [b0, b1] ∧
      (b0.toNat : Int) = 0x80 + (dg + 32) ∧ (b1.toNat : Int) = (drg + 8) * 16 + (dbg + 8) := by
  obtain ⟨i, rfl⟩ := exists_stored (n := 64) (d := dg) (bias := 32) (by omega) (by omega)
  obtain ⟨j, rfl⟩ := exists_stored (n := 16) (d := drg) (bias := 8) (by omega) (by omega)
  obtain ⟨k, rfl⟩ := exists_stored (n := 16) (d := dbg) (bias := 8) (by omega) (by omega)
  refine ⟨_, _, rfl, ?_, ?_⟩
  · clear hg; revert i; decide
  · clear hr hb; revert j k; decide

theorem encode_run_byte {n : Nat} (h : n ≤ 61) :
    encode (.run (n + 1)) = [BitVec.ofNat 8 (0xC0 + n)] := by
  have key : ∀ k : Fin 62, encode (.run (k.val + 1)) = [BitVec.ofNat 8 (0xC0 + k.val)] := by decide
  exact key ⟨n, by omega⟩

end Sys2Proof

/-! ### The delta ops and RUN (42_decoder.md R90 to R92) -/

namespace Sys2Proof.Machine

/-- DIFF and LUMA in one: an op of one pixel that shifts `px`. -/
theorem exec_shifts_channels {s : State} {i : Instr} {dr dg db : Int}
    (hpx : opPixel i s.dec = shiftPixel s.dec.px dr dg db) (hone : opCount i = 1) :
    ∃ t p, exec i s = .next t ∧ OpEffect s t p 1 i.kind.length ∧
      (p.r.toNat : Int) = (s.dec.px.r.toNat + dr) % 256 ∧
      (p.g.toNat : Int) = (s.dec.px.g.toNat + dg) % 256 ∧
      (p.b.toNat : Int) = (s.dec.px.b.toNat + db) % 256 ∧ p.a = s.dec.px.a := by
  obtain ⟨t, hexec, heffect⟩ := exec_next_effect i s
  rw [hpx, hone] at heffect
  exact ⟨t, _, hexec, heffect, addWrap_toNat _ _, addWrap_toNat _ _, addWrap_toNat _ _, rfl⟩

theorem step_of_encode_at_pos {s : State} {i : Instr} (h : s.AtOp) (hwf : i.wf = true)
    (hread : s.dec.inp.readList s.dec.pos i.kind.length = encode i) : step s = exec i s :=
  step_of_bytes_at_pos h (OpKind.length_le_maxOpLen i.kind) hread (decode_encode hwf)

/-- Settles O12: the three channels by `addWrap_toNat`; the byte at `pos` is the one
`encode_diff_byte` gives the fields. -/
theorem diffShiftsChannelsModulo256 : Obligations.DiffShiftsChannelsModulo256 := by
  refine ⟨fun s dr dg db => exec_shifts_channels (i := .diff dr dg db) rfl rfl,
    fun s rr gg bb hrr hgg hbb hat hread => ?_⟩
  have hr : inDiffRange (rr - 2) := by omega
  have hg : inDiffRange (gg - 2) := by omega
  have hb : inDiffRange (bb - 2) := by omega
  obtain ⟨b, henc, hbyte⟩ := encode_diff_byte hr hg hb
  have heq : b = BitVec.ofNat 8 (0x40 + rr * 16 + gg * 4 + bb) :=
    BitVec.eq_of_toNat_eq (by rw [BitVec.toNat_ofNat]; omega)
  exact step_of_encode_at_pos hat (decide_eq_true ⟨hr, hg, hb⟩) (by rw [henc, heq]; exact hread)

/-- Settles O13: as for DIFF, with green's delta added into red's and blue's, and two bytes. -/
theorem lumaShiftsChannelsModulo256 : Obligations.LumaShiftsChannelsModulo256 := by
  refine ⟨fun s dg drg dbg => ?_, fun s g r b hg hr hb hat hread => ?_⟩
  · simp only [add_assoc]
    exact exec_shifts_channels (i := .luma dg drg dbg) rfl rfl
  · have hg' : inLumaGRange (g - 32) := by omega
    have hr' : inLumaRBRange (r - 8) := by omega
    have hb' : inLumaRBRange (b - 8) := by omega
    obtain ⟨b0, b1, henc, hbyte0, hbyte1⟩ := encode_luma_bytes hg' hr' hb'
    have heq0 : b0 = BitVec.ofNat 8 (0x80 + g) :=
      BitVec.eq_of_toNat_eq (by rw [BitVec.toNat_ofNat]; omega)
    have heq1 : b1 = BitVec.ofNat 8 (r * 16 + b) :=
      BitVec.eq_of_toNat_eq (by rw [BitVec.toNat_ofNat]; omega)
    exact step_of_encode_at_pos hat (decide_eq_true ⟨hg', hr', hb'⟩)
      (by rw [henc, heq0, heq1]; exact hread)

/-- Settles O14: `opPixel` of RUN is `px`, `opCount` its length; the byte is `encode_run_byte`'s. -/
theorem runAppendsExactlyNCopies : Obligations.RunAppendsExactlyNCopies := by
  refine ⟨fun s n => exec_next_effect (.run n) s, fun s n hn hat hread => ?_⟩
  have hrange : inRunRange (n + 1) := ⟨Nat.le_add_left 1 n, Nat.succ_le_succ hn⟩
  exact step_of_encode_at_pos hat (decide_eq_true hrange) (by rw [encode_run_byte hn]; exact hread)

/-! ### The fetch stays inside `IN` (20_memory.md R38) -/

/-- Settles O6: `step_of_decode`. -/
theorem stepRunsTheDecodedOp : Obligations.StepRunsTheDecodedOp :=
  fun _ _ _ h hd => step_of_decode h hd

/-- Five bytes are fetched, and no op is longer. -/
theorem State.AtOp.decodes {s : State} (h : s.AtOp) :
    ∃ (b : Byte) (i : Instr) (rest : List Byte),
      s.dec.inp.read? s.dec.pos = some b ∧ decode s.dec.fetchBytes = .ok (i, rest) ∧
        i.wf = true ∧ i.kind = dispatch b := by
  have hlen := h.fetch_length
  have hfirst : s.dec.fetchBytes[0]? = s.dec.inp.read? s.dec.pos := Memory.readList_getElem? ..
  match hbytes : s.dec.fetchBytes, hlen with
  | b :: tail, hlen =>
    have hpayload : (dispatch b).length ≤ tail.length + 1 :=
      Nat.le_trans (OpKind.length_le_maxOpLen _) (Nat.le_of_eq hlen.symm)
    obtain ⟨i, hwf, hkind, hdecode⟩ := exists_decode_eq hpayload
    exact ⟨b, i, _, by rw [← hfirst, hbytes]; rfl, hdecode, hwf, hkind⟩

/-- Settles O7: the op decodes by `State.AtOp.decodes`, and its at most five bytes lie inside `IN`
by `State.AtOp.inside`. -/
theorem runningDecoderReadsInsideIn : Obligations.RunningDecoderReadsInsideIn := by
  intro s hat
  obtain ⟨b, i, rest, hread, hdecode, hwf, hkind⟩ := hat.decodes
  refine ⟨b, i, rest, hread, hdecode, hwf, hkind, fun k hk => ?_⟩
  have hinside := hat.inside
  have hle : (dispatch b).length ≤ 5 := OpKind.length_le_maxOpLen _
  omega

/-- A step at an op runs one well-formed op, of the kind the byte at `pos` selects. -/
theorem step_at_op_runs {s : State} (h : s.AtOp) :
    ∃ (b : Byte) (i : Instr), s.dec.inp.read? s.dec.pos = some b ∧ i.wf = true ∧
      i.kind = dispatch b ∧ step s = .next (s.onDec (decAfterOp i)) := by
  obtain ⟨b, i, rest, hread, hdecode, hwf, hkind⟩ := h.decodes
  exact ⟨b, i, hread, hwf, hkind, by rw [step_of_decode h hdecode, exec_eq]⟩

theorem step_total (s : State) : ∃ t, step s = .next t := by
  cases hm : s.mover with
  | none => exact ⟨_, step_idle hm⟩
  | some x =>
    cases x with
    | enc => exact ⟨_, step_of_enc hm⟩
    | dec =>
      cases hs : s.dec.stage with
      | idle => exact absurd (State.busy_of_mover hm) (by simp [State.busy, hs])
      | start => exact ⟨_, step_at_dec_start ⟨hm, hs⟩⟩
      | loop =>
        by_cases hdue : s.dec.pos < s.dec.endPos
        · obtain ⟨_, _, _, _, _, hstep⟩ := step_at_op_runs ⟨hm, hs, hdue⟩
          exact ⟨_, hstep⟩
        · exact ⟨_, step_at_dec_finish ⟨hm, hs, Nat.not_lt.mp hdue⟩⟩

/-- Settles O8: a busy decoder stands before START, an op or FINISH, and each answers; the encoder's
move always does. -/
theorem everyStepAnswersNext : Obligations.EveryStepAnswersNext := step_total

/-- Settles O47: the step is that of one op, whose length is that of its kind. -/
theorem opAdvancesPosByItsLength : Obligations.OpAdvancesPosByItsLength := by
  intro s t b hat hread hstep
  obtain ⟨b', i, hread', -, hkind, hstep'⟩ := step_at_op_runs hat
  cases hread.symm.trans hread'
  cases hstep.symm.trans hstep'
  have hpos : (s.onDec (decAfterOp i)).dec.pos = s.dec.pos + (dispatch b).length := by
    rw [← hkind]; rfl
  have hlow := OpKind.length_pos (dispatch b)
  have hhigh : (dispatch b).length ≤ 5 := OpKind.length_le_maxOpLen _
  exact ⟨hpos, by omega, by omega⟩

end Sys2Proof.Machine

/-! ### What a move leaves alone (60_exceptions.md R137) -/

namespace Sys2Proof.Machine

/-- A step is no move or the move of a busy engine. -/
theorem step_move_cases {s t : State} (h : step s = .next t) :
    t = s ∨ (s.dec.stage ≠ .idle ∧ decMove s = .next t) ∨
      (s.enc.stage ≠ .idle ∧ t = encMove s) := by
  cases hm : s.mover with
  | none => rw [step_idle hm] at h; cases h; exact .inl rfl
  | some x =>
    have hbusy := State.busy_of_mover hm
    cases x with
    | dec => exact .inr (.inl ⟨of_decide_eq_true hbusy, step_of_dec hm ▸ h⟩)
    | enc =>
      rw [step_of_enc hm] at h
      cases h
      exact .inr (.inr ⟨of_decide_eq_true hbusy, rfl⟩)

/-- `step_cases` as an eliminator with a named case for each operation; an op that is run decodes
from `IN`, so it is well-formed. -/
theorem step_elim {s t : State} {P : State → Prop} (h : step s = .next t) (idle : P s)
    (startDec : s.AtDecStart → P (decStart s))
    (op : ∀ i : Instr, s.AtOp → i.wf = true → P (s.onDec (decAfterOp i)))
    (finishDec : s.AtDecFinish → P (decFinish s)) (startEnc : s.AtEncStart → P (encStart s))
    (pixel : ∀ cur, s.AtPixel cur → P (encStepPixel cur s))
    (finishEnc : s.AtEncFinish → P (encFinish s)) : P t := by
  rcases step_cases h with rfl | ⟨hat, rfl⟩ | ⟨hat, i, rest, hdecode, hexec⟩ | ⟨hat, rfl⟩ |
    ⟨hat, rfl⟩ | ⟨cur, hat, rfl⟩ | ⟨hat, rfl⟩
  · exact idle
  · exact startDec hat
  · obtain ⟨hwf, -⟩ := decode_sound hdecode
    cases hexec.symm.trans (exec_eq i s)
    exact op i hat hwf
  · exact finishDec hat
  · exact startEnc hat
  · exact pixel cur hat
  · exact finishEnc hat

theorem decMove_frame {s t : State} (h : decMove s = .next t) :
    t.enc = s.enc ∧ t.turn = s.turn := by
  have hlocal : t = ⟨t.dec, s.enc, s.turn⟩ :=
    Host.Outcome.next.inj (h.symm.trans (decMove_local rfl h))
  rw [hlocal]
  exact ⟨rfl, rfl⟩

theorem encMove_frame (s : State) : (encMove s).dec = s.dec ∧ (encMove s).turn = s.turn := by
  rw [encMove_local (s := s) rfl]
  exact ⟨rfl, rfl⟩

/-- Settles O49: each move is local to its engine, so the other's move before it changes nothing of
what it reads. -/
theorem enginesDoNotInterfere : Obligations.EnginesDoNotInterfere := by
  intro s t h
  obtain ⟨henc, hturn⟩ := decMove_frame h
  obtain ⟨hdec', hturn'⟩ := encMove_frame s
  refine ⟨henc, hturn, hdec', hturn', ?_⟩
  rw [decMove_local hdec' h, encMove_local henc, hturn, hturn']

theorem step_dec_of_idle {s t : State} (h : step s = .next t) (hidle : s.DecIdle) :
    t.dec = s.dec := by
  rcases step_move_cases h with rfl | ⟨hbusy, -⟩ | ⟨-, rfl⟩
  · rfl
  · exact absurd hidle hbusy
  · exact (encMove_frame s).1

theorem step_enc_of_idle {s t : State} (h : step s = .next t) (hidle : s.EncIdle) :
    t.enc = s.enc := by
  rcases step_move_cases h with rfl | ⟨-, hmove⟩ | ⟨hbusy, -⟩
  · rfl
  · exact (decMove_frame hmove).1
  · exact absurd hidle hbusy

/-- Settles O48: the move of the other engine leaves an idle one alone. -/
theorem endedCallStaysUntilTheHostStartsTheNext :
    Obligations.EndedCallStaysUntilTheHostStartsTheNext :=
  fun _ _ h => ⟨step_dec_of_idle h, step_enc_of_idle h⟩

/-- Where DEC.START ends: the loop, or a fault. -/
theorem decStart_cases (s : State) :
    (∃ hdr, decStart s = s.onDec fun d => { d with status := .running }.initLoop hdr) ∨
      ∃ (u : State) (c : Cause), decStart s = u.raise c ∧ c.engine = .dec ∧
        u.dec.inp = s.dec.inp := by
  by_cases hshort : s.dec.inp.len < Config.headerLen
  · exact .inr ⟨_, _, decStart_short hshort, rfl, rfl⟩
  · cases hp : hdrParse (s.dec.inp.readList 0 Config.headerLen) with
    | error found => exact .inr ⟨_, _, decStart_badMagic hshort hp, rfl, rfl⟩
    | ok hdr =>
      by_cases hroom : s.dec.inp.len < Config.headerLen + Config.endMarkerLen
      · exact .inr ⟨_, _, decStart_noMarker hshort hp hroom, rfl, rfl⟩
      · exact .inl ⟨hdr, decStart_loop hshort hp hroom⟩

theorem decStart_inp (s : State) : (decStart s).dec.inp = s.dec.inp := by
  rcases decStart_cases s with ⟨hdr, h⟩ | ⟨u, c, h, -, hinp⟩
  · rw [h]; rfl
  · rw [h, (u.raise_dec_frame c).1, hinp]

theorem encStart_args (s : State) :
    (encStart s).enc.pix = s.enc.pix ∧ (encStart s).enc.cfg = s.enc.cfg := by
  by_cases h : s.enc.pixLen = s.enc.cfg.imageSize
  · rw [encStart_go h]; exact ⟨rfl, rfl⟩
  · rw [encStart_refuse h]; exact ⟨rfl, rfl⟩

/-- Settles O45: in each case of a step, the frame of the operation it runs. -/
theorem stepNeverWritesTheCallArguments : Obligations.StepNeverWritesTheCallArguments := by
  intro s t h
  apply step_elim h
  case idle => exact ⟨rfl, rfl, rfl⟩
  case startDec =>
    intro _
    obtain ⟨henc, -⟩ := decStart_frame s
    exact ⟨decStart_inp s, by rw [henc], by rw [henc]⟩
  case op => exact fun _ _ _ => ⟨rfl, rfl, rfl⟩
  case finishDec =>
    intro _
    obtain ⟨⟨henc, -⟩, -, hinp, -⟩ := decFinish_frame s
    exact ⟨hinp, by rw [henc], by rw [henc]⟩
  case startEnc => exact fun _ => ⟨by rw [(encStart_frame s).1], encStart_args s⟩
  case pixel =>
    intro cur _
    obtain ⟨-, -, hpix, hcfg, -, -, hdec, -⟩ := encStepPixel_frame cur s
    exact ⟨by rw [hdec], hpix, hcfg⟩
  case finishEnc => exact fun _ => by rw [encFinish_eq]; exact ⟨rfl, rfl, rfl⟩

/-! ### The outputs only grow (20_memory.md R31, R33) -/

/-- A step on a pixel appends bytes, perhaps none. -/
theorem encStepPixel_outb (cur : Pixel) (s : State) :
    ∃ bs, (encStepPixel cur s).enc.outb = s.enc.outb.emit bs := by
  by_cases heq : cur = s.enc.prev
  · rw [encStepPixel_same heq]
    by_cases hcap : s.enc.run.toNat = 61
    · exact ⟨[0xFD], by simp only [State.onEnc_enc, EncState.extendRun_cap hcap]⟩
    · exact ⟨[], by simp only [State.onEnc_enc, EncState.extendRun_below hcap, Memory.emit_nil]⟩
  · rw [encStepPixel_differs heq]
    exact ⟨_, (Memory.emit_append _ _ _).symm⟩

theorem encFinish_outb (s : State) :
    (encFinish s).enc.outb = s.enc.outb.emit (s.enc.pendingBytes ++ Config.endMarker) := by
  rw [encFinish_eq, Memory.emit_append]
  rfl

theorem Memory.bytes_prefix_emit {m : Memory} (h : m.wf = true) (bs : List Byte) :
    m.bytes <+: (m.emit bs).bytes := by
  rw [bytes_emit h]
  exact List.prefix_append _ _

/-- Settles O46: in a loop an op, a pixel or FINISH appends; START stands in no loop. -/
theorem outputsAreAppendOnly : Obligations.OutputsAreAppendOnly := by
  intro s t hwf h
  apply step_elim h
  case idle => exact ⟨fun _ => List.prefix_rfl, fun _ => List.prefix_rfl⟩
  case startDec =>
    intro ⟨_, hstage⟩
    exact ⟨fun hloop => (by cases hstage.symm.trans hloop),
      fun _ => by rw [(decStart_frame s).1]⟩
  case op =>
    intro i _ _
    exact ⟨fun _ => List.prefix_append _ _, fun _ => List.prefix_rfl⟩
  case finishDec =>
    intro _
    obtain ⟨⟨henc, -⟩, -, -, -, -, -, hout, -⟩ := decFinish_frame s
    exact ⟨fun _ => by rw [hout], fun _ => by rw [henc]⟩
  case startEnc =>
    intro ⟨_, hstage⟩
    exact ⟨fun _ => by rw [(encStart_frame s).1],
      fun hloop => (by cases hstage.symm.trans hloop)⟩
  case pixel =>
    intro cur _
    obtain ⟨-, -, -, -, -, -, hdec, -⟩ := encStepPixel_frame cur s
    obtain ⟨bs, houtb⟩ := encStepPixel_outb cur s
    exact ⟨fun _ => by rw [hdec], fun _ => by rw [houtb]; exact Memory.bytes_prefix_emit hwf bs⟩
  case finishEnc =>
    intro _
    exact ⟨fun _ => List.prefix_rfl,
      fun _ => by rw [encFinish_outb]; exact Memory.bytes_prefix_emit hwf _⟩

/-! ### The invariant -/

/-- Settles O42: in each case of a step, the engine that moves keeps its invariant and the other is
not touched. An op is run only where it decodes, so it is well-formed and appends a pixel. -/
theorem stepKeepsTheInvariant : Obligations.StepKeepsTheInvariant := by
  intro s t hinv h
  obtain ⟨hdec, henc⟩ := hinv
  apply step_elim h
  case idle => exact ⟨hdec, henc⟩
  case startDec => exact fun _ => ⟨decStart_inv hdec, (decStart_frame s).1 ▸ henc⟩
  case op => exact fun i hat hwf => ⟨DecState.Inv.afterOp hat hwf hdec, henc⟩
  case finishDec =>
    intro _
    obtain ⟨⟨henc', -⟩, hidle, hinp, -, hpos, hpx, hout, houtcnt, hcache⟩ := decFinish_frame s
    exact ⟨hdec.ended hinp houtcnt hout hpos hpx hcache hidle, henc' ▸ henc⟩
  case startEnc => exact fun _ => ⟨(encStart_frame s).1 ▸ hdec, encStart_inv henc⟩
  case pixel =>
    intro cur hat
    obtain ⟨-, -, -, -, -, -, hdec', -⟩ := encStepPixel_frame cur s
    exact ⟨hdec' ▸ hdec, encStepPixel_inv hat henc⟩
  case finishEnc => exact fun _ => ⟨hdec, encFinish_inv henc⟩

/-- A decoder with all registers at reset meets the invariant, whatever bytes it holds. -/
theorem DecState.Inv.fresh {m : Memory} {stage : Stage} (hm : m.wf = true) (hs : stage ≠ .loop) :
    DecState.Inv { DecState.reset with inp := m, stage := stage } where
  inWf := hm
  counted := rfl
  posLow := Nat.le_refl _
  lastPixel := rfl
  cacheLast := Cache.reflects_reset
  starting := fun _ => rfl
  looping := fun h => absurd h hs

/-- An encoder with all other registers at reset meets the invariant, whatever its arguments. -/
theorem EncState.Inv.fresh {pix : List Pixel} {cfg hdr : Header} {stage : Stage}
    (hs : stage ≠ .loop) :
    EncState.Inv { EncState.reset with pix := pix, cfg := cfg, hdr := hdr, stage := stage } where
  outWf := rfl
  runCap := Nat.zero_lt_succ _
  ipxBound := Nat.zero_le _
  runBound := Nat.le_refl _
  pending := rfl
  prevLast := rfl
  cacheLast := Cache.reflects_reset
  starting := fun _ => rfl
  looping := fun h => absurd h hs

/-- Settles O41: both engines are idle with all registers at reset. -/
theorem invariantHoldsAtReset : Obligations.InvariantHoldsAtReset :=
  ⟨DecState.Inv.fresh Memory.empty_wf Stage.noConfusion, EncState.Inv.fresh Stage.noConfusion⟩

/-- Settles O43: a call starts with all registers at reset, and the other engine is not touched. -/
theorem hostMovesKeepTheInvariant : Obligations.HostMovesKeepTheInvariant := by
  refine ⟨fun s t bytes hinv h => ?_, fun s t pix cfg hinv h => ?_⟩
  · obtain ⟨-, rfl⟩ := startDecode_next h
    exact ⟨DecState.Inv.fresh (Memory.ofBytes_wf bytes) Stage.noConfusion, hinv.enc⟩
  · obtain ⟨-, rfl⟩ := startEncode_next h
    exact ⟨hinv.dec, EncState.Inv.fresh Stage.noConfusion⟩

/-! ### The lock-step of the two engines (41_cache.md R79) -/

/-- Settles O54: `lockStep_encStepPixel`, with the run of the ops by `execAll_eq`. -/
theorem decoderStaysInLockStepWithEncoder : Obligations.DecoderStaysInLockStepWithEncoder := by
  intro s t d cur hinv hat hstep hcache hpx
  cases (step_at_pixel hat).symm.trans hstep
  obtain ⟨ops, ps, hlock⟩ := lockStep_encStepPixel (d := d.dec) hat hinv ⟨hcache, hpx⟩
  obtain ⟨hwf, hbytes, hflushed, ⟨hcache', hpx'⟩, hout⟩ := hlock
  exact ⟨ops, _, ps, hwf, hbytes, execAll_eq ops d, hcache', hpx', hout, hflushed⟩

end Sys2Proof.Machine

/-! ### Runs that agree on one engine -/

namespace Sys2Proof.Machine

/-- A relation that every step carries on is carried on by every run. -/
theorem Steps.simulate {R : State → State → Prop}
    (hstep : ∀ s s' u, R s u → step s = .next s' → ∃ u', step u = .next u' ∧ R s' u')
    {n : Nat} {s t u : State} (h : Steps n s t) (hR : R s u) : ∃ v, Steps n u v ∧ R t v := by
  induction n generalizing s u with
  | zero =>
    have hst : s = t := Host.Outcome.next.inj h
    exact ⟨u, Steps.refl u, hst ▸ hR⟩
  | succ n ih =>
    obtain ⟨s', hs, hn⟩ := Steps.succ_iff.mp h
    obtain ⟨u', hu, hR'⟩ := hstep s s' u hR hs
    obtain ⟨v, hv, hRv⟩ := ih hn hR'
    exact ⟨v, Steps.cons hu hv, hRv⟩

theorem step_turn {s t : State} (h : step s = .next t) : t.turn = s.turn := by
  rcases step_move_cases h with rfl | ⟨-, hmove⟩ | ⟨-, rfl⟩
  · rfl
  · exact (decMove_frame hmove).2
  · exact (encMove_frame s).2

theorem State.DecFirst.step {s t : State} (hfirst : s.DecFirst) (h : step s = .next t) :
    t.DecFirst :=
  hfirst.imp (fun hturn => (step_turn h).trans hturn) fun hidle => by
    rwa [step_enc_of_idle h hidle]

theorem State.EncFirst.step {s t : State} (hfirst : s.EncFirst) (h : step s = .next t) :
    t.EncFirst :=
  hfirst.imp (fun hturn => (step_turn h).trans hturn) fun hidle => by
    rwa [step_dec_of_idle h hidle]

/-- Two states with the same decoder, in which the decoder moves first. -/
structure SameDecoder (s u : State) : Prop where
  dec : u.dec = s.dec
  first : s.DecFirst
  first' : u.DecFirst

/-- Two states with the same encoder, in which the encoder moves first. -/
structure SameEncoder (s u : State) : Prop where
  enc : u.enc = s.enc
  first : s.EncFirst
  first' : u.EncFirst

theorem SameDecoder.step {s s' u : State} (hR : SameDecoder s u) (h : step s = .next s') :
    ∃ u', Machine.step u = .next u' ∧ SameDecoder s' u' := by
  obtain ⟨hdec, hs, hu⟩ := hR
  obtain ⟨u', h'⟩ := step_total u
  refine ⟨u', h', ?_, hs.step h, hu.step h'⟩
  by_cases hidle : s.dec.stage = .idle
  · have hidle' : u.DecIdle := by rwa [State.DecIdle, hdec]
    rw [step_dec_of_idle h' hidle', step_dec_of_idle h hidle, hdec]
  · rw [step_of_dec (State.mover_dec hs hidle)] at h
    rw [step_of_dec (State.mover_dec hu (hdec ▸ hidle)), decMove_local hdec h] at h'
    cases h'
    rfl

theorem SameEncoder.step {s s' u : State} (hR : SameEncoder s u) (h : step s = .next s') :
    ∃ u', Machine.step u = .next u' ∧ SameEncoder s' u' := by
  obtain ⟨henc, hs, hu⟩ := hR
  obtain ⟨u', h'⟩ := step_total u
  refine ⟨u', h', ?_, hs.step h, hu.step h'⟩
  by_cases hidle : s.enc.stage = .idle
  · have hidle' : u.EncIdle := by rwa [State.EncIdle, henc]
    rw [step_enc_of_idle h' hidle', step_enc_of_idle h hidle, henc]
  · rw [step_of_enc (State.mover_enc hs hidle)] at h
    rw [step_of_enc (State.mover_enc hu (henc ▸ hidle)), encMove_local henc] at h'
    cases h
    cases h'
    rfl

/-! ### Every decode ends (42_decoder.md R95) -/

theorem State.raise_endsDecode {s : State} {c : Cause} (h : c.engine = .dec) :
    (s.raise c).dec.status.endsDecode := by
  cases c with
  | encPrecondition => cases h
  | _ => simp [State.raise, Cause.status, Status.endsDecode]

theorem decFinish_endsDecode (s : State) : (decFinish s).dec.status.endsDecode := by
  by_cases hpos : s.dec.pos = s.dec.endPos
  · by_cases hmarker : s.dec.inp.readList s.dec.endPos Config.endMarkerLen = Config.endMarker
    · by_cases hcount : s.dec.outcnt = s.dec.hdr.imageSize
      · rw [decFinish_ok hpos hmarker hcount]
        exact .inl rfl
      · rw [decFinish_mismatch hpos hmarker hcount]
        exact State.raise_endsDecode rfl
    · rw [decFinish_badMarker (.inr hmarker)]
      exact State.raise_endsDecode rfl
  · rw [decFinish_badMarker (.inl hpos)]
    exact State.raise_endsDecode rfl

/-- The decoder's call is over, in one of the five ways. -/
def State.DecEnded (s : State) : Prop := s.DecIdle ∧ s.dec.status.endsDecode

/-- From its loop the decoder ends after at most one op for each byte before the end marker, and
FINISH. -/
theorem decode_loop_ends (k : Nat) {s : State} (hfirst : s.DecFirst) (hloop : s.dec.stage = .loop)
    (hk : s.dec.endPos ≤ s.dec.pos + k) :
    ∃ n t, n ≤ k + 1 ∧ Steps n s t ∧ t.DecEnded := by
  have hmover : s.mover = some .dec := State.mover_dec hfirst (by simp [hloop])
  induction k generalizing s with
  | zero =>
    obtain ⟨-, hidle, -⟩ := decFinish_frame s
    exact ⟨1, _, Nat.le_refl _, Steps.one (step_at_dec_finish ⟨hmover, hloop, hk⟩), hidle,
      decFinish_endsDecode s⟩
  | succ k ih =>
    by_cases hdue : s.dec.pos < s.dec.endPos
    · obtain ⟨b, i, -, -, -, hstep⟩ := step_at_op_runs ⟨hmover, hloop, hdue⟩
      have hlen := OpKind.length_pos i.kind
      have hk' : s.dec.endPos ≤ s.dec.pos + i.kind.length + k := by omega
      obtain ⟨n, t, hn, hsteps, hend⟩ := ih (s := s.onDec (decAfterOp i)) hfirst hloop hk' hmover
      exact ⟨n + 1, t, Nat.succ_le_succ hn, Steps.cons hstep hsteps, hend⟩
    · obtain ⟨n, t, hn, hrun⟩ := ih hfirst hloop (by omega) hmover
      exact ⟨n, t, Nat.le_succ_of_le hn, hrun⟩

theorem decode_ends {s : State} (hfirst : s.DecFirst) (hstart : s.dec.stage = .start) :
    ∃ n t, n ≤ s.dec.inp.len + 2 ∧ Steps n s t ∧ t.DecEnded := by
  have hstep := step_at_dec_start ⟨State.mover_dec hfirst (by simp [hstart]), hstart⟩
  rcases decStart_cases s with ⟨hdr, h⟩ | ⟨u, c, h, hdec, -⟩
  · rw [h] at hstep
    obtain ⟨n, t, hn, hsteps, hend⟩ :=
      decode_loop_ends s.dec.inp.len
        (s := s.onDec fun d => { d with status := .running }.initLoop hdr) hfirst rfl
        (Nat.le_trans (Nat.sub_le _ _) (Nat.le_add_left _ _))
    exact ⟨n + 1, t, Nat.succ_le_succ hn, Steps.cons hstep hsteps, hend⟩
  · exact ⟨1, _, Nat.le_add_left 1 _, Steps.one hstep, h ▸ u.raise_dec_idle hdec,
      h ▸ State.raise_endsDecode hdec⟩

/-- Settles O52: one run of the decode ends by `decode_ends`, and every other starts with the same
decoder. -/
theorem everyDecodeEnds : Obligations.EveryDecodeEnds := by
  intro bytes
  obtain ⟨n, t, hn, hsteps, hidle, hstatus⟩ :=
    decode_ends (s := { State.reset with
      dec := { DecState.reset with inp := Memory.ofBytes bytes, stage := .start } }) (.inl rfl) rfl
  rw [Memory.ofBytes_len] at hn
  refine ⟨n, t.dec, hn, hidle, hstatus, fun s s1 hfirst hstart => ?_⟩
  obtain ⟨-, hs1⟩ := startDecode_next hstart
  obtain ⟨v, hv, hsame⟩ :=
    hsteps.simulate (fun _ _ _ => SameDecoder.step) (u := s1)
      ⟨by rw [hs1], .inl rfl, hs1 ▸ hfirst⟩
  exact ⟨v, hv, hsame.dec⟩

/-! ### Every encode ends (43_encoder.md R115) -/

theorem encFinish_outb_length (s : State) :
    (encFinish s).enc.outb.bytes.length = s.enc.outb.len + s.enc.pendingBytes.length + 8 := by
  rw [encFinish_outb, Memory.bytes_length, Memory.emit_len, List.length_append, ← Nat.add_assoc]
  rfl

/-- One op byte for 62 pixels to five for one, and the 22 bytes of header and end marker. -/
theorem encFinish_outb_bounds {s : State} (hat : s.AtEncFinish) (hinv : s.enc.Inv) :
    22 + (s.enc.pix.length + 61) / 62 ≤ (encFinish s).enc.outb.bytes.length ∧
      (encFinish s).enc.outb.bytes.length ≤ 22 + 5 * s.enc.pix.length := by
  obtain ⟨-, hloop, hnoneLeft⟩ := hat
  obtain ⟨-, -, -, hhdr, hlow, hhigh⟩ := hinv.looping hloop
  have hall : s.enc.ipx = s.enc.pix.length := Nat.le_antisymm hinv.ipxBound hnoneLeft
  have hflushed := EncState.flushed_length (Nat.le_of_eq hall)
  have hrun := hinv.runBound
  have hcap := hinv.runCap
  obtain ⟨-, hsome, hnone⟩ := s.enc.pendingBytes_length
  rw [encFinish_outb_length]
  simp only [Config.headerLen, Config.runMax] at hhdr hlow hhigh hcap
  by_cases hpending : s.enc.run.toNat = 0
  · rw [hnone hpending]
    omega
  · rw [hsome hpending]
    omega

/-- Settles O53: one run of the encode, from reset, ends within the bounds, and every other starts
with the same encoder. -/
theorem everyEncodeEndsWithinItsBounds : Obligations.EveryEncodeEndsWithinItsBounds := by
  intro pix cfg hlen
  obtain ⟨t, -, -, hsteps, -, hfin, hinv, hpix, -⟩ :=
    encode_pixels (s := { State.reset with enc := EncState.loopStart pix cfg })
      (d := DecState.reset) pix.length (.inr rfl) rfl (EncState.loopStart_inv hlen)
      (Nat.zero_add _) ⟨rfl, rfl⟩
  obtain ⟨hlow, hhigh⟩ := encFinish_outb_bounds hfin hinv
  rw [show t.enc.pix = pix from hpix] at hlow hhigh
  refine ⟨(encFinish t).enc, rfl, rfl, hlow, hhigh, fun s s1 hfirst hstart => ?_⟩
  obtain ⟨v, hv, hsame⟩ :=
    (hsteps.trans (Steps.one (step_at_enc_finish hfin))).simulate
      (fun _ _ _ => SameEncoder.step) (u := { s with enc := EncState.loopStart pix cfg })
      ⟨rfl, .inr rfl, hfirst⟩
  exact ⟨v, Steps.cons (step_of_startEncode hfirst hlen hstart) hv, hsame.enc⟩

end Sys2Proof.Machine

/-! ### Hash, cache, header record and pixel word -/

namespace Sys2Proof.Machine

/-- Settles O16: 64 divides 256, so the sum reduced modulo 256 has the same low six bits. -/
theorem hashAgreesWithEightBitArithmetic : Obligations.HashAgreesWithEightBitArithmetic := by
  intro p
  rw [pixelHash_val, BitVec.extractLsb'_toNat]
  simp only [BitVec.toNat_add, BitVec.toNat_mul, BitVec.ofNat_eq_ofNat, BitVec.toNat_ofNat,
    Nat.shiftRight_zero]
  omega

/-- Settles O17: `Cache.read_update` at the slot of the pixel and at another. -/
theorem cacheUpdateWritesOnlyItsSlot : Obligations.CacheUpdateWritesOnlyItsSlot :=
  fun c p => ⟨by rw [Cache.read_update, if_pos rfl], fun h hne => by
    rw [Cache.read_update, if_neg hne]⟩

/-- Settles O19: the two known values of `ChanFlag`. -/
theorem channelsByteThreeAndFourAreKnown : Obligations.ChannelsByteThreeAndFourAreKnown :=
  ⟨rfl, rfl⟩

/-- Settles O20: the bound is `Header.imageSize_lt`. -/
theorem imageSizeIsTheExactProduct : Obligations.ImageSizeIsTheExactProduct :=
  ⟨fun h => ⟨rfl, h.imageSize_lt⟩, by decide⟩

theorem bytesBE32_toNat (v : BitVec 32) :
    (bytesBE32 v).map BitVec.toNat =
      [v.toNat / 2 ^ 24, v.toNat / 2 ^ 16 % 256, v.toNat / 2 ^ 8 % 256, v.toNat % 256] := by
  have hv := v.isLt
  simp only [bytesBE32, List.map_cons, List.map_nil, BitVec.extractLsb'_toNat,
    Nat.shiftRight_eq_div_pow, pow_zero, Nat.div_one, List.cons.injEq, and_true]
  omega

theorem channelsByte_toNat (hasAlpha : Bool) :
    (channelsByte hasAlpha).toNat = 3 + hasAlpha.toNat := by cases hasAlpha <;> rfl

theorem colorspaceByte_toNat (linear : Bool) : (colorspaceByte linear).toNat = linear.toNat := by
  cases linear <;> rfl

/-- Settles O21: the two big-endian numbers and the two flag bytes, each as numbers. -/
theorem headerSerializeLaysOutFourteenBytes : Obligations.HeaderSerializeLaysOutFourteenBytes := by
  intro h
  simp only [hdrSerialize, headerLine, List.map_append, bytesBE32_toNat, List.map_cons,
    List.map_nil, channelsByte_toNat, colorspaceByte_toNat]
  rfl

/-- Settles O22: `hdrParse_hdrSerialize`. -/
theorem headerParseOfSerializeIsIdentity : Obligations.HeaderParseOfSerializeIsIdentity :=
  hdrParse_hdrSerialize

theorem channelsByte_chanFlag {c : Byte} (h : c = 3 ∨ c = 4) :
    channelsByte (Config.chanFlag c) = c := by
  rcases h with rfl | rfl <;> rfl

theorem colorspaceByte_linearFlag {c : Byte} (h : c = 0 ∨ c = 1) :
    colorspaceByte (linearFlag c) = c := by
  rcases h with rfl | rfl <;> rfl

/-- Settles O23: the magic is the one the parse found, the numbers by `bytesBE32_be32`, and the two
flag bytes are rebuilt where they are canonical. -/
theorem headerSerializeOfParseOnCanonicalBytes :
    Obligations.HeaderSerializeOfParseOnCanonicalBytes := by
  intro bs h hlen hparse hchannels hcolorspace
  match bs, hlen with
  | [m0, m1, m2, m3, w0, w1, w2, w3, h0, h1, h2, h3, c, s], _ =>
    have hmagic := hdrParse_ok hparse
    rw [hdrParse_of_magic hmagic] at hparse
    cases hparse
    have hc : c = 3 ∨ c = 4 := by simpa using hchannels
    have hs : s = 0 ∨ s = 1 := by simpa using hcolorspace
    simp only [hdrSerialize, headerLine, List.getD_cons_zero, List.getD_cons_succ, bytesBE32_be32,
      channelsByte_chanFlag hc, colorspaceByte_linearFlag hs, ← hmagic]
    rfl

/-- Settles O24: the word as a sum is `be32_toNat`; the two inverses are those of `be32`. -/
theorem pixelWordIsRrggbbaaAndLossless : Obligations.PixelWordIsRrggbbaaAndLossless := by
  refine ⟨fun p => ⟨be32_toNat p.r p.g p.b p.a, ?_⟩, be32_extract⟩
  have hbytes := bytesBE32_be32 p.r p.g p.b p.a
  simp only [bytesBE32, List.cons.injEq, and_true] at hbytes
  obtain ⟨hr, hg, hb, ha⟩ := hbytes
  rw [Pixel.ofWord, Pixel.word, hr, hg, hb, ha]

/-! ### The canonical form of byte spaces (log entry 7) -/

theorem Memory.cellsWf_cons {lo hi : Nat} {c : Host.Cell} {rest : List Host.Cell} :
    cellsWf lo hi (c :: rest) = true ↔
      lo ≤ c.1 ∧ c.1 < hi ∧ c.2 ≠ unlistedByte ∧ cellsWf (c.1 + 1) hi rest = true := by
  simp only [cellsWf, Bool.and_eq_true, decide_eq_true_eq, and_assoc]

theorem Memory.lookup_head (c : Host.Cell) (rest : List Host.Cell) :
    lookup c.1 (c :: rest) = c.2 := if_pos rfl

theorem Memory.lookup_tail {c : Host.Cell} {rest : List Host.Cell} {a : Nat} (h : c.1 ≠ a) :
    lookup a (c :: rest) = lookup a rest := if_neg h

theorem Memory.le_of_lookup_ne {lo hi a : Nat} {l : List Host.Cell} (h : cellsWf lo hi l = true)
    (hne : lookup a l ≠ unlistedByte) : lo ≤ a :=
  Nat.le_of_not_lt fun hlt => hne (lookup_below h hlt)

/-- Two canonical lists that give the same bytes have the same head: each head's byte is listed in
the other list, so neither head is below the other. -/
theorem Memory.cells_eq_of_lookup_eq {lo lo' hi hi' : Nat} {l l' : List Host.Cell}
    (h : cellsWf lo hi l = true) (h' : cellsWf lo' hi' l' = true)
    (heq : ∀ a, lookup a l = lookup a l') : l = l' := by
  induction l generalizing lo lo' l' with
  | nil =>
    cases l' with
    | nil => rfl
    | cons c' rest' =>
      obtain ⟨-, -, hlisted, -⟩ := cellsWf_cons.mp h'
      exact absurd ((lookup_head c' rest').symm.trans (heq c'.1).symm) hlisted
  | cons c rest ih =>
    obtain ⟨-, hlt, hlisted, hrest⟩ := cellsWf_cons.mp h
    cases l' with
    | nil => exact absurd ((lookup_head c rest).symm.trans (heq c.1)) hlisted
    | cons c' rest' =>
      obtain ⟨-, hlt', hlisted', hrest'⟩ := cellsWf_cons.mp h'
      have hle : c.1 ≤ c'.1 :=
        le_of_lookup_ne (cellsWf_cons.mpr ⟨Nat.le_refl _, hlt, hlisted, hrest⟩)
          (by rwa [heq, lookup_head])
      have hge : c'.1 ≤ c.1 :=
        le_of_lookup_ne (cellsWf_cons.mpr ⟨Nat.le_refl _, hlt', hlisted', hrest'⟩)
          (by rwa [← heq, lookup_head])
      have haddr : c.1 = c'.1 := Nat.le_antisymm hle hge
      have hbyte : c.2 = c'.2 := by
        rw [← lookup_head c rest, heq, haddr, lookup_head]
      have htail : rest = rest' := by
        refine ih hrest hrest' fun a => ?_
        by_cases ha : c.1 = a
        · rw [lookup_below hrest (by omega), lookup_below hrest' (by omega)]
        · rw [← lookup_tail ha, heq, lookup_tail (haddr ▸ ha)]
      rw [Prod.ext haddr hbyte, htail]

theorem Memory.len_le_of_read?_eq {m m' : Memory} (h : ∀ a, m.read? a = m'.read? a) :
    m.len ≤ m'.len := by
  by_contra hlt
  have hread := h m'.len
  simp [read?, Nat.lt_of_not_le hlt] at hread

theorem Memory.lookup_above {lo hi a : Nat} {l : List Host.Cell} (h : cellsWf lo hi l = true)
    (ha : hi ≤ a) : lookup a l = unlistedByte := by
  induction l generalizing lo with
  | nil => rfl
  | cons c rest ih =>
    obtain ⟨-, hlt, -, hrest⟩ := cellsWf_cons.mp h
    rw [lookup_tail (by omega), ih hrest]

theorem Memory.lookup_eq_read? {m : Memory} (h : m.wf = true) (a : Nat) :
    lookup a m.cells = (m.read? a).getD unlistedByte := by
  by_cases ha : a < m.len
  · rw [read?, if_pos ha, Option.getD_some]
  · rw [read?, if_neg ha, Option.getD_none, lookup_above h (Nat.not_lt.mp ha)]

/-- Settles O44: the lengths agree because the same addresses hold a byte, the cells by
`Memory.cells_eq_of_lookup_eq`. -/
theorem spacesThatReadAlikeAreEqual : Obligations.SpacesThatReadAlikeAreEqual := by
  intro m m' hwf hwf' h
  have hlen : m.len = m'.len :=
    Nat.le_antisymm (Memory.len_le_of_read?_eq h) (Memory.len_le_of_read?_eq fun a => (h a).symm)
  have hcells : m.cells = m'.cells :=
    Memory.cells_eq_of_lookup_eq hwf hwf' fun a => by
      rw [Memory.lookup_eq_read? hwf, Memory.lookup_eq_read? hwf', h]
  cases m
  cases m'
  cases hlen
  cases hcells
  rfl

/-! ### Start and end of a decode -/

/-- Settles O29: one case for each cause, which names all it writes. -/
theorem raiseWritesStatusAndResultsOnly : Obligations.RaiseWritesStatusAndResultsOnly := by
  intro s c
  refine ⟨s.raise_turn c, fun hdec => ?_, fun henc => ?_, ?_⟩
  · have hstatus : (s.raise c).dec.status = c.status := by
      cases c with
      | encPrecondition => cases hdec
      | _ => rfl
    exact ⟨hstatus, s.raise_dec_idle hdec, s.raise_enc hdec, s.raise_dec_frame c⟩
  · cases c with
    | encPrecondition => exact ⟨rfl, rfl⟩
    | _ => cases henc
  · cases c with
    | encPrecondition => rfl
    | _ => exact ⟨rfl, rfl, rfl⟩

/-- Settles O30: one case for each status. -/
theorem pixelsAreAResultOnlyAtDoneOk : Obligations.PixelsAreAResultOnlyAtDoneOk := by
  intro s out hdr
  cases hstatus : s.dec.status with
  | doneOk => simp [State.decodeResult, hstatus, eq_comm]
  | _ => simp [State.decodeResult, hstatus]

theorem Memory.take_four_readList_header (m : Memory) :
    (m.readList 0 Config.headerLen).take 4 = m.readList 0 4 :=
  m.take_readList 0 (by decide)

/-- Settles O25: the four outcomes of DEC.START, each by its own equation; the magic is compared in
the first four of the 14 bytes parsed. -/
theorem decodeStartChecksInOrder : Obligations.DecodeStartChecksInOrder := by
  intro s hat
  have hmagic := s.dec.inp.take_four_readList_header
  refine ⟨decStart s, step_at_dec_start hat, (decStart_frame s).1, (decStart_frame s).2,
    decStart_inp s, ?_⟩
  by_cases hshort : s.dec.inp.len < 14
  · simp only [if_pos hshort]
    rw [decStart_short hshort]
    exact ⟨rfl, rfl, rfl, rfl, rfl, rfl, rfl⟩
  simp only [if_neg hshort]
  cases hp : hdrParse (s.dec.inp.readList 0 Config.headerLen) with
  | error found =>
    obtain ⟨hne, hfound⟩ := hdrParse_error hp
    rw [hmagic] at hfound
    rw [hmagic, Config.magic] at hne
    rw [if_pos hne, decStart_badMagic hshort hp]
    exact ⟨rfl, rfl, rfl, rfl, rfl, hfound, rfl⟩
  | ok hdr =>
    have heq := hdrParse_ok hp
    rw [hmagic, Config.magic] at heq
    rw [if_neg (not_not.mpr heq)]
    by_cases hroom : s.dec.inp.len < 22
    · rw [if_pos hroom, decStart_noMarker hshort hp hroom]
      exact ⟨rfl, rfl, hp, rfl, rfl, rfl, rfl⟩
    · rw [if_neg hroom, decStart_loop hshort hp hroom]
      have hend : s.dec.endPos + 8 = s.dec.inp.len :=
        Nat.sub_add_cancel (Nat.le_trans (Nat.le_add_left 8 14) (Nat.not_lt.mp hroom))
      exact ⟨rfl, rfl, hp, rfl, rfl, rfl, rfl, rfl, rfl, rfl, Cache.read_reset, hend⟩

/-- Settles O26: the first step is DEC.START on registers at reset, and it finds the four bytes. -/
theorem badMagicIsReportedBeforeAnyPixel : Obligations.BadMagicIsReportedBeforeAnyPixel := by
  intro s s1 bytes hfirst hstart hlen hne
  obtain ⟨-, hs1⟩ := startDecode_next hstart
  have hat : s1.AtDecStart := hs1 ▸ ⟨State.mover_dec hfirst Stage.noConfusion, rfl⟩
  have hinp : s1.dec.inp = Memory.ofBytes bytes := by rw [hs1]
  have hlong : ¬ s1.dec.inp.len < 14 := by rw [hinp, Memory.ofBytes_len]; omega
  have hfour : (s1.dec.inp.readList 0 Config.headerLen).take 4 = bytes.take 4 := by
    rw [Memory.take_four_readList_header, hinp, Memory.readList_eq, Memory.bytes_ofBytes,
      List.drop_zero]
  have hparse := hdrParse_of_not_magic (bs := s1.dec.inp.readList 0 Config.headerLen)
    (by rwa [hfour])
  rw [hfour] at hparse
  refine ⟨_, step_at_dec_start hat, ?_⟩
  rw [decStart_badMagic hlong hparse]
  exact ⟨rfl, rfl, rfl, by rw [hs1]; rfl, by rw [hs1]; rfl, rfl⟩

/-- Settles O27: the three outcomes of DEC.FINISH in their order, each by its own equation. -/
theorem decodeFinishChecksInOrder : Obligations.DecodeFinishChecksInOrder := by
  intro s hat
  obtain ⟨⟨henc, hturn⟩, hidle, hinp, hhdr, hpos, hpx, hout, houtcnt, hcache⟩ := decFinish_frame s
  refine ⟨decFinish s, step_at_dec_finish hat, henc, hturn, hidle, hinp, hhdr, hpos, hpx, hout,
    houtcnt, hcache, ?_⟩
  split
  case isTrue hbad =>
    rw [decFinish_badMarker hbad]
    exact ⟨rfl, rfl, rfl, rfl⟩
  case isFalse hgood =>
    obtain ⟨hpos, hmarker⟩ := not_or.mp hgood
    rw [not_not] at hpos hmarker
    split
    case isTrue hcount =>
      rw [decFinish_mismatch hpos hmarker hcount]
      exact ⟨rfl, rfl, s.dec.hdr.imageSize_toNat_ofNat, rfl⟩
    case isFalse hcount =>
      rw [decFinish_ok hpos hmarker (not_not.mp hcount)]
      exact ⟨rfl, rfl, rfl, rfl⟩

/-! ### The host's moves (60_exceptions.md R136) -/

/-- Settles O40: the zero caches by `Cache.read_reset`, the rest are the fields of `State.reset`. -/
theorem resetHasTheSpecifiedValues : Obligations.ResetHasTheSpecifiedValues :=
  ⟨rfl, rfl, rfl, rfl, Cache.read_reset, rfl, rfl, rfl, rfl, rfl, Cache.read_reset, rfl⟩

/-- Settles O50: a start writes the whole engine, from its arguments alone. -/
theorem nothingSurvivesIntoTheNextCall : Obligations.NothingSurvivesIntoTheNextCall := by
  refine ⟨fun s s' t t' bytes h h' => ?_, fun s s' t t' pix cfg h h' => ?_⟩
  · rw [(startDecode_next h).2, (startDecode_next h').2]
  · rw [(startEncode_next h).2, (startEncode_next h').2]

theorem State.busy_dec_iff (s : State) : s.busy .dec = true ↔ ¬ s.DecIdle := decide_eq_true_iff

theorem State.busy_enc_iff (s : State) : s.busy .enc = true ↔ ¬ s.EncIdle := decide_eq_true_iff

/-- Settles O51: the test of the start is the stage of its engine. -/
theorem hostStartsACallOnlyOnAnIdleEngine : Obligations.HostStartsACallOnlyOnAnIdleEngine := by
  refine ⟨fun s bytes => ⟨fun hidle => ?_, fun hbusy => ?_⟩,
    fun s pix cfg => ⟨fun hidle => ?_, fun hbusy => ?_⟩⟩
  · exact ⟨_, startDecode_of_idle hidle bytes, rfl, Memory.bytes_ofBytes bytes, rfl⟩
  · exact if_pos (s.busy_dec_iff.mpr hbusy)
  · exact ⟨_, if_neg (mt s.busy_enc_iff.mp (not_not.mpr hidle)), rfl, rfl, rfl, rfl⟩
  · exact if_pos (s.busy_enc_iff.mpr hbusy)

end Sys2Proof.Machine

/-! ### The encoder (43_encoder.md) -/

namespace Sys2Proof.Machine

/-- Settles O31: the two branches of ENC.START. -/
theorem encodeStartEmitsTheHeaderOrRefuses : Obligations.EncodeStartEmitsTheHeaderOrRefuses := by
  intro s hat
  obtain ⟨hdec, hturn⟩ := encStart_frame s
  obtain ⟨hpix, hcfg⟩ := encStart_args s
  refine ⟨encStart s, step_at_enc_start hat, hdec, hturn, hpix, hcfg, ?_⟩
  split
  case isTrue hne =>
    rw [encStart_refuse hne]
    exact ⟨rfl, rfl, rfl, rfl⟩
  case isFalse heq =>
    rw [encStart_go (not_not.mp heq)]
    exact ⟨rfl, rfl, rfl, Memory.bytes_ofBytes _, rfl, rfl, rfl, Cache.read_reset⟩

theorem EncState.extendRun_prev (e : EncState) : e.extendRun.prev = e.prev := by
  by_cases hcap : e.run.toNat = 61
  · rw [extendRun_cap hcap]
  · rw [extendRun_below hcap]

/-- Settles O32: the frame is that of every step on a pixel; the run, the bytes and the cache are
those of `extendRun` at the cap and below it. -/
theorem equalPixelExtendsTheRun : Obligations.EqualPixelExtendsTheRun := by
  intro s cur hwf hcap hat heq
  obtain ⟨hstage, hipx, hpix, hcfg, hhdr, hstatus, hdec, hturn⟩ := encStepPixel_frame cur s
  have hprev : (encStepPixel cur s).enc.prev = s.enc.prev := by
    rw [encStepPixel_same heq]
    exact s.enc.extendRun_prev
  refine ⟨_, step_at_pixel hat, hdec, hturn, hipx, hprev, hpix, hcfg, hhdr, hstatus, hstage, ?_⟩
  rw [encStepPixel_same heq, State.onEnc_enc]
  split
  case isTrue hfull =>
    rw [EncState.extendRun_cap hfull, ← heq]
    exact ⟨rfl, Memory.bytes_emit hwf [0xFD], by rw [Cache.read_update, if_pos rfl],
      fun h hne => by rw [Cache.read_update, if_neg hne]⟩
  case isFalse hbelow =>
    rw [EncState.extendRun_below hbelow]
    refine ⟨?_, rfl, rfl⟩
    rw [BitVec.toNat_add]
    exact Nat.mod_eq_of_lt (by simp; omega)

/-! #### The choice of op for a pixel that differs from `prev` (43_encoder.md R103) -/

/-- Whatever op is chosen, its bytes follow those of the pending run. -/
theorem step_emits_choice {s : State} {cur : Pixel} {i : Instr} (hwf : s.enc.outb.wf = true)
    (hat : s.AtPixel cur) (hne : cur ≠ s.enc.prev) (hop : s.enc.flushIfPending.chooseOp cur = i) :
    ∃ t, step s = .next t ∧ PixelEffect s t cur (encode i) :=
  ⟨_, step_at_pixel hat, hop ▸ encStepPixel_effect hwf hne⟩

section
variable {e : EncState} {cur : Pixel}

theorem EncState.chooseOp_index (hcached : e.testCache.read (pixelHash cur) = cur) :
    e.flushIfPending.chooseOp cur = .index (pixelHash cur) := by
  rw [chooseOp_flushIfPending, if_pos hcached]

theorem EncState.chooseOp_rgba (hcached : e.testCache.read (pixelHash cur) ≠ cur)
    (ha : cur.a ≠ e.prev.a) : e.flushIfPending.chooseOp cur = .rgba cur.r cur.g cur.b cur.a := by
  rw [chooseOp_flushIfPending, if_neg hcached, if_neg ha]

theorem EncState.chooseOp_diff (hcached : e.testCache.read (pixelHash cur) ≠ cur)
    (ha : cur.a = e.prev.a) (hdiff : (delta cur e.prev).fitDiff) :
    e.flushIfPending.chooseOp cur =
      .diff (delta cur e.prev).dr (delta cur e.prev).dg (delta cur e.prev).db := by
  rw [chooseOp_flushIfPending, if_neg hcached, if_pos ha, if_pos hdiff]

theorem EncState.chooseOp_luma (hcached : e.testCache.read (pixelHash cur) ≠ cur)
    (ha : cur.a = e.prev.a) (hdiff : ¬ (delta cur e.prev).fitDiff)
    (hluma : (delta cur e.prev).fitLuma) :
    e.flushIfPending.chooseOp cur =
      .luma (delta cur e.prev).dg ((delta cur e.prev).dr - (delta cur e.prev).dg)
        ((delta cur e.prev).db - (delta cur e.prev).dg) := by
  rw [chooseOp_flushIfPending, if_neg hcached, if_pos ha, if_neg hdiff, if_pos hluma]

theorem EncState.chooseOp_rgb (hcached : e.testCache.read (pixelHash cur) ≠ cur)
    (ha : cur.a = e.prev.a) (hdiff : ¬ (delta cur e.prev).fitDiff)
    (hluma : ¬ (delta cur e.prev).fitLuma) :
    e.flushIfPending.chooseOp cur = .rgb cur.r cur.g cur.b := by
  rw [chooseOp_flushIfPending, if_neg hcached, if_pos ha, if_neg hdiff, if_neg hluma]

end

/-- Settles O33: the second choice; the byte of INDEX is its slot number. -/
theorem cachedPixelIsEmittedAsIndex : Obligations.CachedPixelIsEmittedAsIndex :=
  fun _ _ hwf hat hne hcached =>
    step_emits_choice hwf hat hne (EncState.chooseOp_index hcached)

/-- Settles O34: the third choice; the byte is `encode_diff_byte`'s. -/
theorem smallDeltaIsEmittedAsDiff : Obligations.SmallDeltaIsEmittedAsDiff := by
  intro s cur hwf hat hne hcached ha hdiff
  obtain ⟨hr, hg, hb⟩ := hdiff
  obtain ⟨b, henc, hbyte⟩ := encode_diff_byte hr hg hb
  obtain ⟨t, hstep, heffect⟩ :=
    step_emits_choice hwf hat hne (EncState.chooseOp_diff hcached ha ⟨hr, hg, hb⟩)
  exact ⟨t, b, hstep, henc ▸ heffect, hbyte⟩

/-- Settles O35: the fourth choice; the bytes are `encode_luma_bytes`'s. -/
theorem mediumDeltaIsEmittedAsLuma : Obligations.MediumDeltaIsEmittedAsLuma := by
  intro s cur hwf hat hne hcached ha hdiff hluma
  obtain ⟨hg, hr, hb⟩ := hluma
  obtain ⟨b0, b1, henc, hbyte0, hbyte1⟩ := encode_luma_bytes hg hr hb
  obtain ⟨t, hstep, heffect⟩ :=
    step_emits_choice hwf hat hne (EncState.chooseOp_luma hcached ha hdiff ⟨hg, hr, hb⟩)
  exact ⟨t, b0, b1, hstep, henc ▸ heffect, hbyte0, hbyte1⟩

/-- Settles O36: the fifth choice, after DIFF and LUMA do not fit. -/
theorem largeDeltaSameAlphaIsEmittedAsRgb : Obligations.LargeDeltaSameAlphaIsEmittedAsRgb :=
  fun _ _ hwf hat hne hcached ha hdiff hluma =>
    step_emits_choice hwf hat hne (EncState.chooseOp_rgb hcached ha hdiff hluma)

/-- Settles O37: the last choice, whatever the deltas. -/
theorem changedAlphaIsEmittedAsRgba : Obligations.ChangedAlphaIsEmittedAsRgba :=
  fun _ _ hwf hat hne hcached ha =>
    step_emits_choice hwf hat hne (EncState.chooseOp_rgba hcached ha)

/-- Settles O38: `encFinish_eq` names every register it writes; the bytes are two emits. -/
theorem encodeFinishFlushesThenMarks : Obligations.EncodeFinishFlushesThenMarks := by
  intro s hwf hat
  have hbytes : (encFinish s).enc.outb.bytes =
      s.enc.outb.bytes ++ s.enc.pendingBytes ++ Config.endMarker := by
    rw [encFinish_outb, Memory.bytes_emit hwf, List.append_assoc]
  refine ⟨encFinish s, step_at_enc_finish hat, rfl, rfl, rfl, rfl, EncState.flushIfPending_run,
    hbytes, ?_⟩
  rw [encFinish_eq]
  exact ⟨fun _ => rfl, rfl, rfl, rfl, rfl, rfl, rfl⟩

/-! #### The wrapped delta (43_encoder.md R113, decision D6) -/

theorem deltaChannel_range (cur prev : Byte) :
    -128 ≤ deltaChannel cur prev ∧ deltaChannel cur prev ≤ 127 := by
  simp only [deltaChannel, sext8, wrap8, BitVec.toNat_ofInt]
  omega

theorem deltaChannel_emod (cur prev : Byte) :
    (deltaChannel cur prev - ((cur.toNat : Int) - prev.toNat)) % 256 = 0 := by
  simp only [deltaChannel, sext8, wrap8, BitVec.toNat_ofInt]
  omega

/-- Settles O39: the range and the residue of a delta, and `addWrap_deltaChannel`. -/
theorem wrappedDeltaIsUndoneByWrappedAdd : Obligations.WrappedDeltaIsUndoneByWrappedAdd := by
  intro cur prev
  obtain ⟨hlow, hhigh⟩ := deltaChannel_range cur prev
  exact ⟨hlow, hhigh, deltaChannel_emod cur prev, addWrap_deltaChannel cur prev⟩

end Sys2Proof.Machine
